-- ==== Sys2Proof/Word.lean ====
section
/-! DEFINITION. The two unsigned value types of the block (R9, R13, R98). -/

namespace Sys2Proof

/-- A byte: 8 bits, 0 to 255 (R9). It is the unit of memory and of an instruction's bytes. -/
abbrev Byte := BitVec 8

/-- A word: 16 bits, 0 to 0xFFFF (R9). `PC`, `A`, `X`, `Y`, `RESET_VECTOR` and the 16-bit operand have this width. -/
abbrev Word := BitVec 16

end Sys2Proof
end

