-- ==== Sys2Proof/Syntax.lean ====
section
/-! DEFINITION. The instructions: one constructor per row of spec/opcode_table.json (R2, R59). -/

namespace Sys2Proof

/-- An instruction with its operand as fetched. The addressing mode is part of the constructor (R85). Operands are
unsigned: `operand8` is R60's, `operand16` is R61's. -/
inductive Instr where
  /-- NOP, opcode 0xEA, implied (R105). -/
  | nop
  /-- LDA immediate, opcode 0xA9 (R106). -/
  | ldaImm (operand8 : Byte)
  /-- LDA absolute, opcode 0xAD (R107). -/
  | ldaAbs (operand16 : Word)
  /-- LDA absolute,X, opcode 0xBD (R108). -/
  | ldaAbsX (operand16 : Word)
  /-- LDA absolute,Y, opcode 0xB9 (R109). -/
  | ldaAbsY (operand16 : Word)
  /-- LDA zero-page, opcode 0xA5 (R110). -/
  | ldaZp (operand8 : Byte)
  deriving DecidableEq, Repr

end Sys2Proof
end

