-- ==== Sys2Proof/WellFormed.lean ====
section
/-! DEFINITION. Which terms are legal: instructions, and the raw numbers a host passes to the interface. -/

namespace Sys2Proof

/-- Every term of `Instr` is well formed. An operand byte or word is consumed whatever its value is (R63), no operand value
is reserved (R64), and the types already bound the operands (R60, R61). An operand that names an unreadable address is a
fault at the data read (R90, R91), not an ill-formed instruction. -/
def Instr.wellFormed : Instr → Bool
  | .nop => true
  | .ldaImm _ => true
  | .ldaAbs _ => true
  | .ldaAbsX _ => true
  | .ldaAbsY _ => true
  | .ldaZp _ => true

/-- A host argument of unsigned type (a value, an address, `maxCycles`) is legal when it is not negative (R115, R120, U13,
U15). Any natural is accepted; a number too wide for its destination is a fault of the operation, not an ill-formed term. -/
def naturalArgument (v : Int) : Bool := decide (0 ≤ v)

/-- The construction argument `resetVector` has type `uint16` (R10, R123, U14). -/
def vectorArgument (v : Int) : Bool := decide (0 ≤ v ∧ v ≤ 0xFFFF)

end Sys2Proof
end

