-- ==== Sys2Proof/Decode.lean ====
section
/-! DEFINITION. The opcode table, the decoder, the encoder and the byte order of an operand word (30_encoding.md). -/

namespace Sys2Proof

/-- Little-endian word of two bytes: `lo | (hi << 8)` (R41, R45, R61). -/
def wordOfBytes (lo hi : Byte) : Word := lo.setWidth 16 ||| (hi.setWidth 16 <<< 8)

/-- `w & 0xFF`, the byte at the lower address (R43, R45). -/
def loByte (w : Word) : Byte := w.setWidth 8

/-- `w >> 8`, the byte at the higher address (R43, R45). -/
def hiByte (w : Word) : Byte := (w >>> 8).setWidth 8

/-- One entry of the opcode table, by its format (R58): what the opcode byte still needs to be an instruction. -/
inductive OpcodeRow where
  /-- `IMP`: no operand, length 1. -/
  | imp (i : Instr)
  /-- `B8`: one operand byte, length 2. -/
  | b8 (form : Byte → Instr)
  /-- `W16`: one little-endian operand word, length 3. -/
  | w16 (form : Word → Instr)

/-- The fixed table of R59, in the source's order. It is a definition, not state (R31). -/
def opcodeTable : List (Byte × OpcodeRow) :=
  [ (0xEA#8, .imp .nop),
    (0xA9#8, .b8 .ldaImm),
    (0xAD#8, .w16 .ldaAbs),
    (0xBD#8, .w16 .ldaAbsX),
    (0xB9#8, .w16 .ldaAbsY),
    (0xA5#8, .b8 .ldaZp) ]

/-- R59's `Decode`: a lookup of the whole opcode byte; `none` is an unrecognized opcode (R66). -/
def lookupOpcode (op : Byte) : Option OpcodeRow :=
  (opcodeTable.find? fun row => row.1 == op).map Prod.snd

/-- Why a byte string is not an instruction. -/
inductive DecodeError where
  /-- There is no byte to decode. -/
  | noBytes
  /-- The opcode byte has no table entry (R66). -/
  | unrecognized (op : Byte)
  /-- The table has the opcode, but the string ends before its operand does (R58). -/
  | missingOperand (op : Byte)
  deriving DecidableEq, Repr

/-- The operand bytes of a table entry, and the bytes after them (R58, R60, R61). -/
def decodeOperand (op : Byte) : OpcodeRow → List Byte → Except DecodeError (Instr × List Byte)
  | .imp i, rest => .ok (i, rest)
  | .b8 form, v :: rest => .ok (form v, rest)
  | .w16 form, lo :: hi :: rest => .ok (form (wordOfBytes lo hi), rest)
  | .b8 _, [] => .error (.missingOperand op)
  | .w16 _, [] => .error (.missingOperand op)
  | .w16 _, [_] => .error (.missingOperand op)

/-- The decoder over a byte string: the instruction at its front and the bytes left, or the reason there is none. -/
def decode : List Byte → Except DecodeError (Instr × List Byte)
  | [] => .error .noBytes
  | op :: rest =>
    match lookupOpcode op with
    | none => .error (.unrecognized op)
    | some row => decodeOperand op row rest

/-- The bytes of an instruction, first byte at the lowest address (R57, R58, R62). -/
def encode : Instr → List Byte
  | .nop => [0xEA#8]
  | .ldaImm v => [0xA9#8, v]
  | .ldaAbs w => [0xAD#8, loByte w, hiByte w]
  | .ldaAbsX w => [0xBD#8, loByte w, hiByte w]
  | .ldaAbsY w => [0xB9#8, loByte w, hiByte w]
  | .ldaZp v => [0xA5#8, v]

/-- The length of an instruction in bytes, the table's column (R59, R65). -/
def instrLength : Instr → Nat
  | .nop => 1
  | .ldaImm _ => 2
  | .ldaAbs _ => 3
  | .ldaAbsX _ => 3
  | .ldaAbsY _ => 3
  | .ldaZp _ => 2

/-- The bytes of an opcode-table word, numbered as spec/opcode_table.json numbers its bits: byte k is bits 8k+7 to 8k of `w`.
Bits at `nbits` and above are 0, up to the longest instruction's three bytes. -/
def tableBytes (nbits w : Nat) : List Byte :=
  let v := w % 2 ^ nbits
  [BitVec.ofNat 8 v, BitVec.ofNat 8 (v / 0x100), BitVec.ofNat 8 (v / 0x10000)]

/-- The instruction the decoder reads from an opcode-table word (see `tableBytes`). -/
def decodeTableWord (nbits w : Nat) : Option Instr :=
  match decode (tableBytes nbits w) with
  | .ok (i, _) => some i
  | .error _ => none

end Sys2Proof
end

