-- ==== Sys2Proof/Config.lean ====
section
/-! DEFINITION. The implementation parameters of R9 that one implementation fixes, and the one value this model
chooses for memory. The block has no free value: every result the spec leaves open is a fault that carries no state
(U1) or a parameter (`initMem`, the argument of `State.construct`). -/

namespace Sys2Proof.Config

/-- `MEM_SIZE` (R9, R37, R39): 65536 locations, addresses 0x0000 to 0xFFFF. -/
def memSize : Nat := 65536

/-- The default of the construction argument `RESET_VECTOR` (R9, R10). It is a value, not the address of a pointer (R148). -/
def defaultResetVector : Word := 0xFFFC#16

/-- DESIGN CHOICE (log entry 2), unsafe for a claim about `State.reset` alone. What an address that a memory does not list
reads as. Every memory image is a `Memory`, so a statement over all states still ranges over every `initMem` (R11). -/
def unlistedByte : Byte := 0#8

end Sys2Proof.Config
end

