-- ==== Sys2Proof/Machine/State.lean ====
section
/-! DEFINITION. The state (R17, R37), the faults and refusals (R16, R125), construction (R146) and the state after
reset (R147). -/

namespace Sys2Proof.Machine

/-- The targets a value-range fault can name (R125). -/
inductive Target where
  | pc | a | x | y | byte | word
  deriving DecidableEq, Repr

/-- The two hard faults of R125. A fault carries no state: what the machine holds after one is not specified (R127, U1), so
stopping is safe. -/
inductive Fault where
  /-- `BoundsFault(addr, n)`, raised by the bus for an access of `n` bytes outside 0 to `MEM_SIZE - 1` (R40 to R43, R126):
  an operand word fetched at 0xFFFF, a data word at 0xFFFF or above, a host access. Safe. -/
  | boundsFault (addr n : Nat)
  /-- `ValueRangeFault(target, value)`, raised by an assignment beyond its width (R128): a fetch that would advance PC past
  0xFFFF, or a host setter or bus write of a value too wide. Safe. -/
  | valueRangeFault (target : Target) (value : Nat)
  deriving DecidableEq, Repr

/-- Why a request has no meaning. -/
inductive Refusal where
  /-- An instruction that has no meaning yet. No arm of `exec` raises it: all six have theirs. Safe. -/
  | notModelled (mnemonic : String)
  /-- `Refused` of R16: a host argument outside its type (a negative number, a reset vector above 0xFFFF), rejected before
  anything happens. Raised by the host interface only, never by a step. Safe. -/
  | argumentOutsideType (value : Int)
  deriving DecidableEq, Repr

/-- The eight independent flag fields (R27). -/
structure Flags where
  /-- `P.N`, bit 7 of the status byte. -/
  negative : Bool
  /-- `P.V`, bit 6. -/
  overflow : Bool
  /-- `P.E`, bit 5: an ordinary field that reads what was last written (R28). -/
  expansion : Bool
  /-- `P.B`, bit 4. -/
  breakCommand : Bool
  /-- `P.D`, bit 3. -/
  decimal : Bool
  /-- `P.I`, bit 2: masks nothing (R131). -/
  interruptDisable : Bool
  /-- `P.Z`, bit 1. -/
  zero : Bool
  /-- `P.C`, bit 0. -/
  carry : Bool
  deriving DecidableEq, Repr

/-- The memory image (R37): address and byte pairs in the one canonical form that `Memory.wf` states. An address that is not
listed reads as `Config.unlistedByte` (log entry 2). -/
abbrev Memory := List Host.Cell

/-- The architectural state: exactly the tuple of R17, with the memory image beside it (R37). Nothing else persists between
iterations of the execute loop (R32). -/
structure State where
  /-- `PC`, the address of the next instruction byte (R19). -/
  pc : Word
  /-- `A`, 16 bits of storage (R22). -/
  a : Word
  /-- `X` (R24). -/
  x : Word
  /-- `Y` (R25). -/
  y : Word
  /-- `P`, the eight flags (R27). -/
  flags : Flags
  /-- `CYC`, the unbounded cycle counter (R30). -/
  cyc : Nat
  /-- `RESET_VECTOR`, fixed at construction (R10, R29). -/
  resetVector : Word
  /-- The memory the bus serves (R37). -/
  mem : Memory
  deriving DecidableEq, Repr

/-- All eight flags false, as construction leaves them (R146). -/
def Flags.clear : Flags :=
  { negative := false, overflow := false, expansion := false, breakCommand := false,
    decimal := false, interruptDisable := false, zero := false, carry := false }

/-- `CPU(memory, resetVector)` (R146) over the image `initMem` (R11): PC, A, X, Y and CYC are 0 and the flags are all false.
`P.Z` is not computed from A = 0, and PC is not loaded from the vector. -/
def State.construct (initMem : Memory) (resetVector : Word) : State :=
  { pc := 0#16, a := 0#16, x := 0#16, y := 0#16, flags := Flags.clear, cyc := 0,
    resetVector := resetVector, mem := initMem }

/-- The machine right after reset: a core fresh from construction with the default vector (R146), after one `reset()`
(R147), over a memory that lists nothing (log entries 2 and 3). -/
def State.reset : State :=
  { State.construct [] Config.defaultResetVector with pc := Config.defaultResetVector }

end Sys2Proof.Machine
end

