-- ==== Sys2Proof/Machine/Ops.lean ====
section
/-! DEFINITION. The named operations over registers and memory: the bus contract (20_memory.md), the cycle accumulator and
the fetch primitives (40_fetch_dispatch.md), and the one way a fault leaves an instruction (60_exceptions.md).

The block takes no exception: no event saves state, takes a vector or changes a mode (R127, R134), and no instruction
returns from one (R135). `propagate` is what stands in that place. -/

namespace Sys2Proof.Machine

/-! ### Cycle costs (R80). Every literal is the source's (R12, D26). -/

/-- "Fetching one instruction byte and advancing PC: 1 cycle" (R72). -/
def byteFetchCost : Nat := 1
/-- "Fetching one 16-bit operand word and advancing PC by 2: 2 cycles" (R73). -/
def wordFetchCost : Nat := 2
/-- Resolving an absolute, indexed or zero-page address to its stored word: 1 cycle (R90, R91, R92). -/
def resolveCost : Nat := 1
/-- The page-cross penalty (R89, R91). -/
def pageCrossCost : Nat := 1
/-- The NOP body: 1 cycle on top of its fetch (R105). -/
def nopCost : Nat := 1
/-- The compensating decrement on an unrecognized opcode (R81). -/
def haltCompensation : Nat := 1

/-! ### Register updates -/

/-- `CYC <- CYC + k`, the single accumulation entry point (R80). -/
def State.addCycles (k : Nat) (s : State) : State := { s with cyc := s.cyc + k }

/-- `CYC <- CYC - 1`, the only decrement (R30, R81). -/
def State.compensate (s : State) : State := { s with cyc := s.cyc - haltCompensation }

/-- `PC <- v`. -/
def State.withPc (v : Word) (s : State) : State := { s with pc := v }

/-- `X <- v`; no flag changes (R24). -/
def State.withX (v : Word) (s : State) : State := { s with x := v }

/-- `Y <- v`; no flag changes (R25). -/
def State.withY (v : Word) (s : State) : State := { s with y := v }

/-- The eight flags replaced. -/
def State.withFlags (p : Flags) (s : State) : State := { s with flags := p }

/-- The memory image replaced. -/
def State.withMem (m : Memory) (s : State) : State := { s with mem := m }

/-! ### The memory image -/

/-- The byte at an address (R37). -/
def Memory.lookup : Memory → Nat → Byte
  | [], _ => Config.unlistedByte
  | (k, v) :: m, a => if k = a then v else Memory.lookup m a

/-- The image with `v` at `a`, in canonical form: writing what an unlisted address reads as removes the entry. -/
def Memory.store : Memory → Nat → Byte → Memory
  | [], a, v => if v = Config.unlistedByte then [] else [(a, v)]
  | (k, w) :: m, a, v =>
    if k < a then (k, w) :: Memory.store m a v
    else if k = a then (if v = Config.unlistedByte then m else (a, v) :: m)
    else if v = Config.unlistedByte then (k, w) :: m else (a, v) :: (k, w) :: m

/-- Canonical form from the address `lo` up: addresses strictly rising and inside the space, no entry equal to the unlisted
byte. -/
def Memory.wfFrom : Nat → Memory → Bool
  | _, [] => true
  | lo, (k, v) :: m =>
    decide (lo ≤ k) && decide (k < Config.memSize) && decide (v ≠ Config.unlistedByte) && Memory.wfFrom (k + 1) m

/-- The canonical form of a memory image. -/
def Memory.wf (m : Memory) : Bool := Memory.wfFrom 0 m

/-- Consecutive bytes stored from `a` up, the `.byte` directive of R68. A byte past the top of the space has no location and
is dropped (log entry 4). -/
def Memory.storeBytes : Memory → Nat → List Byte → Memory
  | m, _, [] => m
  | m, a, v :: vs => Memory.storeBytes (if a < Config.memSize then m.store a v else m) (a + 1) vs

/-- The `n` bytes from `a` up. -/
def Memory.bytesAt (m : Memory) (a : Nat) : Nat → List Byte
  | 0 => []
  | n + 1 => m.lookup a :: Memory.bytesAt m (a + 1) n

/-! ### The bus contract -/

/-- `readByte(addr)`, `MemRead(addr, 1)` (R40). -/
def readByte (m : Memory) (addr : Nat) : Except Fault Byte :=
  if addr < Config.memSize then .ok (m.lookup addr) else .error (.boundsFault addr 1)

/-- `readWord(addr)`, `MemRead(addr, 2)`: little-endian, no wrap at the top (R41, R47). -/
def readWord (m : Memory) (addr : Nat) : Except Fault Word :=
  if addr + 1 < Config.memSize then .ok (wordOfBytes (m.lookup addr) (m.lookup (addr + 1)))
  else .error (.boundsFault addr 2)

/-- `writeByte(addr, value)`: the bounds check comes before the value check, and a fault leaves memory unchanged (R42). -/
def writeByte (m : Memory) (addr value : Nat) : Except Fault Memory :=
  if addr < Config.memSize then
    if value ≤ 0xFF then .ok (m.store addr (BitVec.ofNat 8 value)) else .error (.valueRangeFault .byte value)
  else .error (.boundsFault addr 1)

/-- `writeWord(addr, value)`: little-endian; a fault writes neither byte (R43). -/
def writeWord (m : Memory) (addr value : Nat) : Except Fault Memory :=
  if addr + 1 < Config.memSize then
    if value ≤ 0xFFFF then
      .ok ((m.store addr (BitVec.ofNat 8 (value % 0x100))).store (addr + 1) (BitVec.ofNat 8 (value / 0x100)))
    else .error (.valueRangeFault .word value)
  else .error (.boundsFault addr 2)

/-! ### Fetch primitives -/

/-- `PC <- PC + k`, which raises `ValueRangeFault(PC, PC + k)` instead of wrapping past 0xFFFF (R21, D2). -/
def advancePc (k : Nat) (s : State) : Except Fault State :=
  if s.pc.toNat + k ≤ 0xFFFF then .ok (s.withPc (s.pc + BitVec.ofNat 16 k))
  else .error (.valueRangeFault .pc (s.pc.toNat + k))

/-- `FetchByte()` (R72): the read, then the PC advance, then the cycle. -/
def fetchByte (s : State) : Except Fault (Byte × State) :=
  match readByte s.mem s.pc.toNat with
  | .error f => .error f
  | .ok b =>
    match advancePc 1 s with
    | .error f => .error f
    | .ok s' => .ok (b, s'.addCycles byteFetchCost)

/-- `FetchWord()` (R73): the read, then the PC advance, then the two cycles. -/
def fetchWord (s : State) : Except Fault (Word × State) :=
  match readWord s.mem s.pc.toNat with
  | .error f => .error f
  | .ok w =>
    match advancePc 2 s with
    | .error f => .error f
    | .ok s' => .ok (w, s'.addCycles wordFetchCost)

/-- The operand fetch of a table entry, by its format (R57, R58): what a handler reads first (R75, R96). -/
def fetchOperand (row : OpcodeRow) (s : State) : Except Fault (Instr × State) :=
  match row with
  | .imp i => .ok (i, s)
  | .b8 form =>
    match fetchByte s with
    | .error f => .error f
    | .ok (v, s') => .ok (form v, s')
  | .w16 form =>
    match fetchWord s with
    | .error f => .error f
    | .ok (w, s') => .ok (form w, s')

/-! ### Faults -/

/-- Fault propagation (R83, R127): a fault ends the operation that raised it and reaches the caller unchanged, with no next
state. -/
def propagate : Except Fault State → Host.Outcome State Fault Refusal
  | .error f => .fault f
  | .ok s => .next s

end Sys2Proof.Machine
end

