-- ==== Sys2Proof/Machine/Flags.lean ====
section
/-! DEFINITION. The flag computations and the one operation that writes A (42_flags_alu.md). No operation of the block
generates carry or overflow (R97). -/

namespace Sys2Proof.Machine

/-- A flag's contribution to the status byte: 1 when true, 0 when false (R99). -/
def flagBit (b : Bool) : Byte := if b then 1#8 else 0#8

/-- The status byte `compose()` (R99): a pure function of the flag fields. -/
def compose (p : Flags) : Byte :=
  (flagBit p.negative <<< 7) ||| (flagBit p.overflow <<< 6) ||| (flagBit p.expansion <<< 5) |||
  (flagBit p.breakCommand <<< 4) ||| (flagBit p.decimal <<< 3) ||| (flagBit p.interruptDisable <<< 2) |||
  (flagBit p.zero <<< 1) ||| flagBit p.carry

/-- `setFromValue(v)` (R100): Z from all 16 bits, N from bit 7 alone, the other six flags untouched. -/
def setFromValue (v : Word) (p : Flags) : Flags :=
  { p with zero := v == 0#16, negative := v.getLsbD 7 }

/-- `A <- v` with N and Z recomputed from the value stored (R102). -/
def State.withA (v : Word) (s : State) : State := { s with a := v, flags := setFromValue v s.flags }

/-- `loadAccumulator(v)` (R102): the one operation that writes A. A value above 0xFFFF changes nothing and raises. -/
def loadAccumulator (v : Nat) (s : State) : Except Fault State :=
  if v ≤ 0xFFFF then .ok (s.withA (BitVec.ofNat 16 v)) else .error (.valueRangeFault .a v)

end Sys2Proof.Machine
end

