-- ==== Sys2Proof/Machine/Operands.lean ====
section
/-! DEFINITION. The addressing-mode resolver (41_addressing.md): from the fetched operand to the value a load takes. The
operand fetch stands before these operations (`fetchOperand`), in the order R96 gives. -/

namespace Sys2Proof.Machine

/-- Zero extension of a byte, `zext_16` (R13). Nothing in the block sign-extends. -/
def zext16 (v : Byte) : Word := v.setWidth 16

/-- Effective address of an indexed mode: the unbounded sum, 0 to 0x1FFFE, with no wrap (R88). -/
def indexedAddress (base index : Word) : Nat := base.toNat + index.toNat

/-- `PageCross(base, offset)` (R89): the full 16-bit offset, and strictly above 0x100. -/
def pageCross (base offset : Word) : Bool := decide (base.toNat % 0x100 + offset.toNat > 0x100)

/-- Cycles to resolve an indexed address: 1, and 1 more on page-cross (R91). -/
def indexedCost (base index : Word) : Nat :=
  resolveCost + (if pageCross base index then pageCrossCost else 0)

/-- The word stored at `ea`, then the resolve cycles (R90, R91, R92). -/
def resolveStored (ea cost : Nat) (s : State) : Except Fault (Word × State) :=
  match readWord s.mem ea with
  | .error f => .error f
  | .ok v => .ok (v, s.addCycles cost)

/-- Immediate mode (R87): the operand byte itself, zero-extended; no data read and no cycle beyond its fetch. -/
def resolveImmediate (operand8 : Byte) (s : State) : Except Fault (Word × State) := .ok (zext16 operand8, s)

/-- Absolute mode (R90). -/
def resolveAbsolute (operand16 : Word) (s : State) : Except Fault (Word × State) :=
  resolveStored operand16.toNat resolveCost s

/-- Absolute-indexed mode (R91) with the index register's 16-bit value. -/
def resolveIndexed (base index : Word) (s : State) : Except Fault (Word × State) :=
  resolveStored (indexedAddress base index) (indexedCost base index) s

/-- Zero-page mode (R92): the high byte of the word at 0xFF comes from 0x0100 (R93). -/
def resolveZeroPage (operand8 : Byte) (s : State) : Except Fault (Word × State) :=
  resolveStored (zext16 operand8).toNat resolveCost s

/-- What every LDA does with its resolved value: `loadAccumulator` (44_lda.md, "Common to all five"). -/
def loadResolved (r : Except Fault (Word × State)) : Host.Outcome State Fault Refusal :=
  match r with
  | .error f => .fault f
  | .ok (v, s) => propagate (loadAccumulator v.toNat s)

end Sys2Proof.Machine
end

