-- ==== Sys2Proof/Machine/Lda.lean ====
section
/-! DEFINITION. The meanings of LDA in its five addressing modes (44_lda.md), each from the state its operand fetch leaves. -/

namespace Sys2Proof.Machine

/-- LDA immediate (R106). -/
def execLdaImm (operand8 : Byte) (s : State) : Host.Outcome State Fault Refusal :=
  loadResolved (resolveImmediate operand8 s)

/-- LDA absolute (R107): a word load. -/
def execLdaAbs (operand16 : Word) (s : State) : Host.Outcome State Fault Refusal :=
  loadResolved (resolveAbsolute operand16 s)

/-- LDA absolute,X (R108). -/
def execLdaAbsX (operand16 : Word) (s : State) : Host.Outcome State Fault Refusal :=
  loadResolved (resolveIndexed operand16 s.x s)

/-- LDA absolute,Y (R109). X plays no part. -/
def execLdaAbsY (operand16 : Word) (s : State) : Host.Outcome State Fault Refusal :=
  loadResolved (resolveIndexed operand16 s.y s)

/-- LDA zero-page (R110): a word load. -/
def execLdaZp (operand8 : Byte) (s : State) : Host.Outcome State Fault Refusal :=
  loadResolved (resolveZeroPage operand8 s)

end Sys2Proof.Machine
end

