-- ==== Sys2Proof/Machine/Nop.lean ====
section
/-! DEFINITION. The meaning of NOP (43_nop.md). -/

namespace Sys2Proof.Machine

/-- NOP's handler (R105): one cycle, no other change. -/
def execNop (s : State) : Host.Outcome State Fault Refusal := .next (s.addCycles nopCost)

end Sys2Proof.Machine
end

