-- ==== Sys2Proof/Machine/Dispatch.lean ====
section
/-! DEFINITION. Dispatch (R75): one handler per instruction, from the state its operand fetch leaves (log entry 5). -/

namespace Sys2Proof.Machine

def exec (i : Instr) (s : State) : Host.Outcome State Fault Refusal :=
  match i with
  | .nop => Sys2Proof.Machine.execNop s
  | .ldaImm operand8 => Sys2Proof.Machine.execLdaImm operand8 s
  | .ldaAbs operand16 => Sys2Proof.Machine.execLdaAbs operand16 s
  | .ldaAbsX operand16 => Sys2Proof.Machine.execLdaAbsX operand16 s
  | .ldaAbsY operand16 => Sys2Proof.Machine.execLdaAbsY operand16 s
  | .ldaZp operand8 => Sys2Proof.Machine.execLdaZp operand8 s

end Sys2Proof.Machine
end

