-- ==== Sys2Proof/Machine/Iteration.lean ====
section
/-! DEFINITION. One iteration of the execute loop below the budget test (R70, R74 to R76, R81). -/

namespace Sys2Proof.Machine

/-- How an iteration ends (R76): the loop continues, the call stops with `Unrecognized(op, addr)`, or the call ends with a
fault. -/
inductive IterationEnd where
  | continues (s : State)
  /-- `s` is the state the halt leaves; nothing in it marks the halt (R32, R81). -/
  | unrecognized (op : Byte) (addr : Word) (s : State)
  | faulted (f : Fault)
  /-- An instruction without a meaning. No iteration ends so. -/
  | refused (r : Refusal)
  deriving DecidableEq, Repr

/-- The outcome of a handler as the end of its iteration. -/
def handlerEnd : Host.Outcome State Fault Refusal → IterationEnd
  | .next s => .continues s
  | .fault f => .faulted f
  | .refused r => .refused r

/-- Opcode fetch, table lookup, operand fetch, handler (R70). The opcode fetch's fault comes before the lookup (R132). An
unrecognized opcode takes its fetch's cycle back and leaves PC past the byte (R81, C5). -/
def iteration (s : State) : IterationEnd :=
  match fetchByte s with
  | .error f => .faulted f
  | .ok (op, s₁) =>
    match lookupOpcode op with
    | none => .unrecognized op s.pc s₁.compensate
    | some row =>
      match fetchOperand row s₁ with
      | .error f => .faulted f
      | .ok (i, s₂) => handlerEnd (exec i s₂)

/-- An iteration's end as the outcome of a step. A halt on an unrecognized opcode leaves a state from which the host may call
`execute` again (R81, R135), so it is a next state (DESIGN CHOICE, log entry 1). -/
def IterationEnd.outcome : IterationEnd → Host.Outcome State Fault Refusal
  | .continues s => .next s
  | .unrecognized _ _ s => .next s
  | .faulted f => .fault f
  | .refused r => .refused r

end Sys2Proof.Machine
end

