-- ==== Sys2Proof/Machine/Step.lean ====
section
/-! DEFINITION. The step: one iteration of the execute loop (R76), and how a test places the next instruction. -/

namespace Sys2Proof.Machine

/-- One step: an iteration of an execute call whose budget is not spent (R71, R76; log entry 1). The budget test and the
call's return stand in `execute`. -/
def step (s : State) : Host.Outcome State Fault Refusal := (iteration s).outcome

/-- The state with the instruction word `w` stored at PC, where the next step fetches: the host's load of a program through
the bus (R119, R150; log entry 4). -/
def State.withFetchWord (s : State) (nbits w : Nat) : State :=
  s.withMem (s.mem.storeBytes s.pc.toNat (tableBytes nbits w))

end Sys2Proof.Machine
end

