-- ==== Sys2Proof/Machine/Accesses.lean ====
section
/-! DEFINITION. The memory accesses of an iteration, in order (R38, R48). Every one is a read: no instruction writes memory. -/

namespace Sys2Proof.Machine

/-- One call of the bus: the address passed and the width, 1 or 2 bytes. -/
structure Access where
  addr : Nat
  width : Nat
  deriving DecidableEq, Repr

/-- The operand access of a table entry, at PC (R48, R72, R73). -/
def operandAccess (row : OpcodeRow) (s : State) : List Access :=
  match row with
  | .imp _ => []
  | .b8 _ => [⟨s.pc.toNat, 1⟩]
  | .w16 _ => [⟨s.pc.toNat, 2⟩]

/-- The data access of a handler (R48): a word at the effective address, or none. -/
def dataAccess (i : Instr) (s : State) : List Access :=
  match i with
  | .nop => []
  | .ldaImm _ => []
  | .ldaAbs operand16 => [⟨operand16.toNat, 2⟩]
  | .ldaAbsX operand16 => [⟨indexedAddress operand16 s.x, 2⟩]
  | .ldaAbsY operand16 => [⟨indexedAddress operand16 s.y, 2⟩]
  | .ldaZp operand8 => [⟨(zext16 operand8).toNat, 2⟩]

/-- The accesses of the iteration that starts at `s`, up to its first fault: the opcode byte at PC (R74), then the operand,
then the data word. -/
def accesses (s : State) : List Access :=
  ⟨s.pc.toNat, 1⟩ ::
    match fetchByte s with
    | .error _ => []
    | .ok (op, s₁) =>
      match lookupOpcode op with
      | none => []
      | some row =>
        operandAccess row s₁ ++
          match fetchOperand row s₁ with
          | .error _ => []
          | .ok (i, s₂) => dataAccess i s₂

end Sys2Proof.Machine
end

