-- ==== Sys2Proof/Machine/Execute.lean ====
section
/-! DEFINITION. The execute call: the budgeted loop of R70 to R83 over `iteration`. -/

namespace Sys2Proof.Machine

/-- Why a call returned (R82). -/
inductive StopReason where
  | budget
  | unrecognized (op : Byte) (addr : Word)
  deriving DecidableEq, Repr

/-- The end of an execute call (R16, R82, R83). -/
inductive CallEnd where
  /-- `Ok(cyc, reason)`, with the state the call leaves. -/
  | ok (cyc : Nat) (reason : StopReason) (s : State)
  /-- `Fault(kind, info)`: no state (R127). -/
  | fault (f : Fault)
  /-- An instruction without a meaning. No call ends so. -/
  | refused (r : Refusal)
  deriving DecidableEq, Repr

/-- The loop of R70, cut off after `fuel` iterations. The budget test comes first in each iteration and compares `CYC` itself
with `maxCycles` (R71). -/
def executeLoop : Nat → Nat → State → CallEnd
  | 0, _, s => .ok s.cyc .budget s
  | fuel + 1, maxCycles, s =>
    if s.cyc < maxCycles then
      match iteration s with
      | .continues s' => executeLoop fuel maxCycles s'
      | .unrecognized op addr s' => .ok s'.cyc (.unrecognized op addr) s'
      | .faulted f => .fault f
      | .refused r => .refused r
    else .ok s.cyc .budget s

/-- `execute(maxCycles)` (R70). Each iteration that continues adds at least 2 to `CYC` (R79), so `maxCycles - CYC` iterations
always reach an end of the call, and the cut-off is never seen (DEDUCED, log entry 6). -/
def execute (maxCycles : Nat) (s : State) : CallEnd := executeLoop (maxCycles - s.cyc) maxCycles s

end Sys2Proof.Machine
end

