-- ==== Sys2Proof/Machine/HostInterface.lean ====
section
/-! DEFINITION. The host interface (45_host_interface.md): construction, reset, the accessors, the bus and `execute`, each one
atomic transaction (R112). Arguments are raw integers; one outside its type is refused before anything happens (R16). -/

namespace Sys2Proof.Machine

/-- The name of a flag field (R27). -/
inductive Flag where
  | n | v | e | b | d | i | z | c
  deriving DecidableEq, Repr

/-- The field a name stands for (R117). -/
def Flags.get (p : Flags) : Flag → Bool
  | .n => p.negative
  | .v => p.overflow
  | .e => p.expansion
  | .b => p.breakCommand
  | .d => p.decimal
  | .i => p.interruptDisable
  | .z => p.zero
  | .c => p.carry

/-- One field written, the other seven kept; `setFromValue` plays no part (R117). -/
def Flags.put (p : Flags) (value : Bool) : Flag → Flags
  | .n => { p with negative := value }
  | .v => { p with overflow := value }
  | .e => { p with expansion := value }
  | .b => { p with breakCommand := value }
  | .d => { p with decimal := value }
  | .i => { p with interruptDisable := value }
  | .z => { p with zero := value }
  | .c => { p with carry := value }

/-- `reset()` (R147): PC takes the vector's value; no memory is read and nothing else changes. -/
def resetCore (s : State) : State := s.withPc s.resetVector

/-- `CPU(memory, resetVector)` as a request (R123, R146). -/
def constructCore (initMem : Memory) (resetVector : Int := 0xFFFC) : Host.Outcome State Fault Refusal :=
  if vectorArgument resetVector then .next (State.construct initMem (BitVec.ofNat 16 resetVector.toNat))
  else .refused (.argumentOutsideType resetVector)

/-- The X setter (R116). -/
def setX (v : Nat) (s : State) : Except Fault State :=
  if v ≤ 0xFFFF then .ok (s.withX (BitVec.ofNat 16 v)) else .error (.valueRangeFault .x v)

/-- The Y setter (R116). -/
def setY (v : Nat) (s : State) : Except Fault State :=
  if v ≤ 0xFFFF then .ok (s.withY (BitVec.ofNat 16 v)) else .error (.valueRangeFault .y v)

/-- The operations of R111 on a constructed core, and no others. -/
inductive HostOp where
  | reset
  | execute (maxCycles : Int)
  | getA | getX | getY | getPc
  | setA (v : Int)
  | setX (v : Int)
  | setY (v : Int)
  | getFlag (f : Flag)
  | setFlag (f : Flag) (value : Bool)
  | compose
  | readByte (addr : Int)
  | readWord (addr : Int)
  | writeByte (addr value : Int)
  | writeWord (addr value : Int)
  deriving DecidableEq, Repr

/-- What an operation returns to the host (R111). -/
inductive Reply where
  | nothing
  | byte (v : Byte)
  | word (v : Word)
  | flag (v : Bool)
  | executed (cyc : Nat) (reason : StopReason)
  deriving DecidableEq, Repr

/-- How a host operation ends (R16, R122). -/
inductive HostEnd where
  /-- A normal return. -/
  | ok (reply : Reply) (s : State)
  /-- A setter or a bus write that faulted on its argument and changed nothing: the host may go on from `s` (R122). -/
  | argumentFault (f : Fault) (s : State)
  /-- Any other fault: the session ends and no state may be claimed (R122, R127). -/
  | sessionFault (f : Fault)
  /-- An argument outside its type, rejected before anything happens (R16). -/
  | refused (r : Refusal)
  deriving DecidableEq, Repr

/-- The first argument that is negative, if one is (U13, U15). -/
def refusedArgument : HostOp → Option Int
  | .reset => none
  | .execute m => if naturalArgument m then none else some m
  | .getA => none
  | .getX => none
  | .getY => none
  | .getPc => none
  | .setA v => if naturalArgument v then none else some v
  | .setX v => if naturalArgument v then none else some v
  | .setY v => if naturalArgument v then none else some v
  | .getFlag _ => none
  | .setFlag _ _ => none
  | .compose => none
  | .readByte a => if naturalArgument a then none else some a
  | .readWord a => if naturalArgument a then none else some a
  | .writeByte a v => if naturalArgument a then (if naturalArgument v then none else some v) else some a
  | .writeWord a v => if naturalArgument a then (if naturalArgument v then none else some v) else some a

/-- The end of a setter. -/
def setterEnd (s : State) : Except Fault State → HostEnd
  | .ok s' => .ok .nothing s'
  | .error f => .argumentFault f s

/-- The end of a bus write. -/
def busWriteEnd (s : State) : Except Fault Memory → HostEnd
  | .ok m => .ok .nothing (s.withMem m)
  | .error f => .argumentFault f s

/-- The end of an execute call as a host operation (R120). -/
def callEnd : CallEnd → HostEnd
  | .ok cyc reason s => .ok (.executed cyc reason) s
  | .fault f => .sessionFault f
  | .refused r => .refused r

/-- The effect of an operation whose arguments are in their types (R111 to R121). -/
def performOp : HostOp → State → HostEnd
  | .reset, s => .ok .nothing (resetCore s)
  | .execute m, s => callEnd (execute m.toNat s)
  | .getA, s => .ok (.word s.a) s
  | .getX, s => .ok (.word s.x) s
  | .getY, s => .ok (.word s.y) s
  | .getPc, s => .ok (.word s.pc) s
  | .setA v, s => setterEnd s (loadAccumulator v.toNat s)
  | .setX v, s => setterEnd s (Sys2Proof.Machine.setX v.toNat s)
  | .setY v, s => setterEnd s (Sys2Proof.Machine.setY v.toNat s)
  | .getFlag f, s => .ok (.flag (s.flags.get f)) s
  | .setFlag f value, s => .ok .nothing (s.withFlags (s.flags.put value f))
  | .compose, s => .ok (.byte (Sys2Proof.Machine.compose s.flags)) s
  | .readByte a, s =>
    match Sys2Proof.Machine.readByte s.mem a.toNat with
    | .ok v => .ok (.byte v) s
    | .error f => .sessionFault f
  | .readWord a, s =>
    match Sys2Proof.Machine.readWord s.mem a.toNat with
    | .ok v => .ok (.word v) s
    | .error f => .sessionFault f
  | .writeByte a v, s => busWriteEnd s (Sys2Proof.Machine.writeByte s.mem a.toNat v.toNat)
  | .writeWord a v, s => busWriteEnd s (Sys2Proof.Machine.writeWord s.mem a.toNat v.toNat)

/-- One host operation (R112). -/
def hostStep (op : HostOp) (s : State) : HostEnd :=
  match refusedArgument op with
  | some v => .refused (.argumentOutsideType v)
  | none => performOp op s

/-- A host session: operations one after another, each from the state the one before left, over a halt and over an argument
fault, but not past any other fault (R120, R122). A refused argument ends the session here too (log entry 7). -/
def session : List HostOp → State → HostEnd
  | [], s => .ok .nothing s
  | op :: ops, s =>
    match hostStep op s with
    | .ok _ s' => session ops s'
    | .argumentFault _ s' => session ops s'
    | .sessionFault f => .sessionFault f
    | .refused r => .refused r

end Sys2Proof.Machine
end

