-- ==== Sys2Proof/Safety.lean ====
section
/-! DEFINITION. The predicates and expected results that statements about the machine are made of. They are written from the
rules over numbers, not with the operations the meanings use. -/

namespace Sys2Proof.Safety

open Sys2Proof.Machine

/-- N and Z are the function of A that the last write to A left (R101). Construction and a host write of N or Z may break it. -/
abbrev FlagsAgree (s : State) : Prop :=
  s.flags.zero = decide (s.a.toNat = 0) ∧ s.flags.negative = decide (s.a.toNat / 0x80 % 2 = 1)

/-- The invariant of every step: the memory is in canonical form, and N and Z are not both set (R103). -/
abbrev Inv (s : State) : Prop := s.mem.wf = true ∧ ¬(s.flags.zero = true ∧ s.flags.negative = true)

/-- The six opcode bytes of R59. -/
abbrev Recognized (op : Byte) : Prop :=
  op = 0xEA#8 ∨ op = 0xA9#8 ∨ op = 0xAD#8 ∨ op = 0xBD#8 ∨ op = 0xB9#8 ∨ op = 0xA5#8

/-- The number the little-endian word at `a` stands for (R41, R45). -/
def storedWord (m : Memory) (a : Nat) : Nat := (m.lookup a).toNat + 0x100 * (m.lookup (a + 1)).toNat

/-- `s` with `v` in A, Z set when all of `v` is 0, N its bit 7, and nothing else changed (R100, R102). -/
def loaded (v : Nat) (s : State) : State :=
  { s with
    a := BitVec.ofNat 16 v
    flags := { s.flags with zero := decide (v = 0), negative := decide (v / 0x80 % 2 = 1) } }

/-- `s` with PC and CYC moved on (R72, R73, R80). -/
def movedOn (bytes cycles : Nat) (s : State) : State :=
  { s with pc := s.pc + BitVec.ofNat 16 bytes, cyc := s.cyc + cycles }

/-- 1 when the page-cross formula holds of the base and the whole index, else 0 (R89). -/
def penalty (base index : Nat) : Nat := if base % 0x100 + index > 0x100 then 1 else 0

/-- The address of the data word a handler reads, if it reads one (R87 to R92). -/
def dataAddress (i : Instr) (s : State) : Option Nat :=
  match i with
  | .nop => none
  | .ldaImm _ => none
  | .ldaAbs operand16 => some operand16.toNat
  | .ldaAbsX operand16 => some (operand16.toNat + s.x.toNat)
  | .ldaAbsY operand16 => some (operand16.toNat + s.y.toNat)
  | .ldaZp operand8 => some operand8.toNat

/-- The data word a handler reads is inside the space (R154). -/
def DataInside (i : Instr) (s : State) : Prop := ∀ ea, dataAddress i s = some ea → ea ≤ 0xFFFE

/-- The total cost of an instruction, opcode fetch included (R95). -/
def totalCycles (i : Instr) (s : State) : Nat :=
  match i with
  | .nop => 2
  | .ldaImm _ => 2
  | .ldaAbs _ => 4
  | .ldaAbsX operand16 => 4 + penalty operand16.toNat s.x.toNat
  | .ldaAbsY operand16 => 4 + penalty operand16.toNat s.y.toNat
  | .ldaZp _ => 3

/-- The bytes from PC up are those of `i` (R57). -/
abbrev StandsAtPc (i : Instr) (s : State) : Prop := s.mem.bytesAt s.pc.toNat (instrLength i) = encode i

/-- The whole instruction stands below 0xFFFF, so that no fetch advances PC past 0xFFFF (R154). -/
abbrev FetchInside (i : Instr) (s : State) : Prop := s.pc.toNat + instrLength i ≤ 0xFFFF

/-- A step that takes no fault: it continues, or it halts on an unrecognized opcode. -/
def StepSafe (s : State) : Prop := ∃ t, step s = .next t

/-- The same state over another memory image. -/
def iterationEndOver (m : Memory) : IterationEnd → IterationEnd
  | .continues t => .continues { t with mem := m }
  | .unrecognized op addr t => .unrecognized op addr { t with mem := m }
  | .faulted f => .faulted f
  | .refused r => .refused r

end Sys2Proof.Safety
end

