-- ==== Sys2Proof/Certificates/Slice0/Obligations.lean ====
section
/-! DEFINITION. The statements for the provers. A docstring names the rule a statement formalises; where a clause rests on a
decision the spec marks as its own (92_eei_decisions.md), an inference it marks as derived, or a log entry of this model, the
docstring says so. -/

open Sys2Proof Sys2Proof.Machine Sys2Proof.Safety

/-! ### Encoding -/

/-- R59, whole: the table has exactly the six entries, with their formats, and every other byte has none. -/
def Obligations.TableHasExactlySixOpcodes : Prop :=
  ∀ (v lo hi : Byte) (rest : List Byte),
    decode (0b11101010#8 :: rest) = .ok (.nop, rest) ∧
    decode (0b10101001#8 :: v :: rest) = .ok (.ldaImm v, rest) ∧
    decode (0b10101101#8 :: lo :: hi :: rest) = .ok (.ldaAbs (hi ++ lo), rest) ∧
    decode (0b10111101#8 :: lo :: hi :: rest) = .ok (.ldaAbsX (hi ++ lo), rest) ∧
    decode (0b10111001#8 :: lo :: hi :: rest) = .ok (.ldaAbsY (hi ++ lo), rest) ∧
    decode (0b10100101#8 :: v :: rest) = .ok (.ldaZp v, rest) ∧
    ∀ op, ¬Recognized op → decode (op :: rest) = .error (.unrecognized op)

/-- Decode and encode agree in both directions: a byte string decodes to `i` with `rest` left exactly when it is the encoding
of `i` followed by `rest`. Rests on 30_encoding.md sections 1 to 5. -/
def Obligations.DecodeAcceptsExactlyEncodings : Prop :=
  ∀ (bytes rest : List Byte) (i : Instr), decode bytes = .ok (i, rest) ↔ bytes = encode i ++ rest

/-- The 250 unrecognized bytes are the bytes no encoding begins with. Rests on 30_encoding.md section 4. -/
def Obligations.UnrecognizedBytesBeginNoEncoding : Prop :=
  (∀ op : Byte, lookupOpcode op = none ↔ ∀ i : Instr, (encode i).head? ≠ some op) ∧
  ((List.range 256).filter fun n => (lookupOpcode (BitVec.ofNat 8 n)).isNone).length = 250

/-- The opcode byte alone fixes the length: 1, 2 or 3. Rests on 30_encoding.md section 5, which the spec marks as derived. -/
def Obligations.OpcodeByteFixesLength : Prop :=
  ∀ i j : Instr, (encode i).length = instrLength i ∧ 1 ≤ instrLength i ∧ instrLength i ≤ 3 ∧
    ((encode i).head? = (encode j).head? → instrLength i = instrLength j)

/-! ### The bus -/

/-- R40, whole. -/
def Obligations.ReadByteContract : Prop :=
  ∀ (m : Memory) (addr : Nat),
    (addr < 65536 → readByte m addr = .ok (m.lookup addr)) ∧
    (65536 ≤ addr → readByte m addr = .error (.boundsFault addr 1))

/-- R41, whole: the low byte comes from the lower address, and 0xFFFF and above fault. -/
def Obligations.ReadWordContract : Prop :=
  ∀ (m : Memory) (addr : Nat),
    (addr + 1 < 65536 → ∃ w, readWord m addr = .ok w ∧
      w.toNat = (m.lookup addr).toNat + 256 * (m.lookup (addr + 1)).toNat) ∧
    (65536 ≤ addr + 1 → readWord m addr = .error (.boundsFault addr 2))

/-- `writeByte` stores one byte and changes no other, and its two faults come in the order of D17. Rests on 20_memory.md
section 2 (the bounds fault's effect is D21). -/
def Obligations.WriteByteContract : Prop :=
  ∀ (m : Memory) (addr value : Nat), m.wf = true →
    (addr < 65536 → value ≤ 255 → ∃ m', writeByte m addr value = .ok m' ∧
      (m'.lookup addr).toNat = value ∧ ∀ b, b ≠ addr → m'.lookup b = m.lookup b) ∧
    (addr < 65536 → 255 < value → writeByte m addr value = .error (.valueRangeFault .byte value)) ∧
    (65536 ≤ addr → writeByte m addr value = .error (.boundsFault addr 1))

/-- `writeWord` stores the two bytes little-endian and changes no other. Rests on 20_memory.md section 2 (the value check is
D14). -/
def Obligations.WriteWordContract : Prop :=
  ∀ (m : Memory) (addr value : Nat), m.wf = true →
    (addr + 1 < 65536 → value ≤ 65535 → ∃ m', writeWord m addr value = .ok m' ∧
      (m'.lookup addr).toNat = value % 256 ∧ (m'.lookup (addr + 1)).toNat = value / 256 ∧
      ∀ b, b ≠ addr → b ≠ addr + 1 → m'.lookup b = m.lookup b) ∧
    (addr + 1 < 65536 → 65535 < value → writeWord m addr value = .error (.valueRangeFault .word value)) ∧
    (65536 ≤ addr + 1 → writeWord m addr value = .error (.boundsFault addr 2))

/-- R44, whole: the round-trip laws, and the bounds fault at 65535. -/
def Obligations.BusRoundTripLaws : Prop :=
  ∀ m : Memory, m.wf = true →
    (∀ (a : Nat) (v : Byte), a < 65536 → ∃ m', writeByte m a v.toNat = .ok m' ∧ readByte m' a = .ok v) ∧
    (∀ (a : Nat) (w : Word), a ≤ 65534 → ∃ m', writeWord m a w.toNat = .ok m' ∧ readWord m' a = .ok w ∧
      ∃ lo hi, readByte m' a = .ok lo ∧ readByte m' (a + 1) = .ok hi ∧
        lo.toNat = w.toNat % 256 ∧ hi.toNat = w.toNat / 256) ∧
    (∀ w : Word, writeWord m 65535 w.toNat = .error (.boundsFault 65535 2)) ∧
    readWord m 65535 = .error (.boundsFault 65535 2)

/-- Two canonical images that read alike everywhere are one list. The canonical form is the model's own (log entry 2). -/
def Obligations.CanonicalImagesAreDeterminedByReads : Prop :=
  ∀ m m' : Memory, m.wf = true → m'.wf = true → (∀ a, a < 65536 → m.lookup a = m'.lookup a) → m = m'

/-! ### Flags and the accumulator -/

/-- R99, whole: the layout of the status byte; that the host's `compose()` returns that byte from every state and changes
nothing; and that no instruction reads it: a handler's outcome does not depend on the flags it starts from, except that it
keeps or rewrites the fields themselves. -/
def Obligations.StatusByteLayoutAndUnread : Prop :=
  (∀ p : Flags, (compose p).toNat =
    128 * p.negative.toNat + 64 * p.overflow.toNat + 32 * p.expansion.toNat + 16 * p.breakCommand.toNat +
      8 * p.decimal.toNat + 4 * p.interruptDisable.toNat + 2 * p.zero.toNat + p.carry.toNat) ∧
  (∀ s : State, hostStep .compose s = .ok (.byte (compose s.flags)) s) ∧
  ∀ (i : Instr) (s : State) (p : Flags),
    (∀ f, exec i s = .fault f ↔ exec i { s with flags := p } = .fault f) ∧
    ∀ t, exec i s = .next t → ∃ q, exec i { s with flags := p } = .next { t with flags := q }

/-- R100, whole. -/
def Obligations.SetFromValueRule : Prop :=
  ∀ (v : Word) (p : Flags),
    ((setFromValue v p).zero = true ↔ v.toNat = 0) ∧
    ((setFromValue v p).negative = true ↔ v.toNat / 128 % 2 = 1) ∧
    (setFromValue v p).overflow = p.overflow ∧ (setFromValue v p).expansion = p.expansion ∧
    (setFromValue v p).breakCommand = p.breakCommand ∧ (setFromValue v p).decimal = p.decimal ∧
    (setFromValue v p).interruptDisable = p.interruptDisable ∧ (setFromValue v p).carry = p.carry

/-- The outcomes of a load by value class, and that N and Z are never both set. Rests on 42_flags_alu.md section 4, whose
table the spec marks as derived. -/
def Obligations.LoadNeverSetsBothNandZ : Prop :=
  ∀ (v : Nat) (s t : State), loadAccumulator v s = .ok t →
    (v = 0 → t.flags.zero = true ∧ t.flags.negative = false) ∧
    (1 ≤ v → v ≤ 0x7F → t.flags.zero = false ∧ t.flags.negative = false) ∧
    (0x80 ≤ v → v ≤ 0xFF → t.flags.zero = false ∧ t.flags.negative = true) ∧
    (0x100 ≤ v → v % 0x100 < 0x80 → t.flags.zero = false ∧ t.flags.negative = false) ∧
    (0x100 ≤ v → 0x80 ≤ v % 0x100 → t.flags.zero = false ∧ t.flags.negative = true)

/-- The accumulator write of R102 (42_flags_alu.md section 4): its effect, its fault above 0xFFFF, that an iteration changes A
only by it (A and the flags are kept, or are those of one `loadAccumulator`), that an iteration that halts keeps A and the
flags, and that on the host's side only the A setter, which is this operation, and `execute` change A. That no iteration
raises its fault is an inference: "within the execute loop it never faults" is marked derived there, and is DEDUCED in log
entry 12. -/
def Obligations.AccumulatorIsWrittenByOneOperation : Prop :=
  (∀ (v : Nat) (s : State),
    (v ≤ 0xFFFF → loadAccumulator v s = .ok (loaded v s)) ∧
    (0xFFFF < v → loadAccumulator v s = .error (.valueRangeFault .a v))) ∧
  ∀ s : State,
    (∀ t, iteration s = .continues t →
      (t.a = s.a ∧ t.flags = s.flags) ∨
      ∃ (v : Nat) (u : State), loadAccumulator v s = .ok u ∧ t.a = u.a ∧ t.flags = u.flags) ∧
    (∀ op addr t, iteration s = .unrecognized op addr t → t.a = s.a ∧ t.flags = s.flags) ∧
    (∀ v, iteration s ≠ .faulted (.valueRangeFault .a v)) ∧
    ∀ (op : HostOp) (reply : Reply) (t : State), hostStep op s = .ok reply t →
      ((∀ v, op ≠ .setA v) → (∀ m, op ≠ .execute m) → t.a = s.a) ∧
      ∀ v, op = .setA v → loadAccumulator v.toNat s = .ok t

/-- R104, whole: a step and any number of execute calls keep the six flags. -/
def Obligations.SixFlagsSurviveExecution : Prop :=
  ∀ s : State,
    (∀ t, step s = .next t →
      t.flags = { s.flags with zero := t.flags.zero, negative := t.flags.negative }) ∧
    ∀ (budgets : List Nat) (reply : Reply) (t : State),
      session (budgets.map fun (m : Nat) => HostOp.execute (m : Int)) s = .ok reply t →
        t.flags = { s.flags with zero := t.flags.zero, negative := t.flags.negative }

/-- R101, whole: a write to A makes N and Z the function of A; steps and host operations other than a write of N or Z keep it
so; it does not hold at construction. -/
def Obligations.NandZFollowTheAccumulator : Prop :=
  (∀ (v : Nat) (s t : State), loadAccumulator v s = .ok t → FlagsAgree t) ∧
  (∀ (i : Instr) (s t : State), i ≠ .nop → exec i s = .next t → FlagsAgree t) ∧
  (∀ s t : State, FlagsAgree s → step s = .next t → FlagsAgree t) ∧
  (∀ (op : HostOp) (reply : Reply) (s t : State), FlagsAgree s → hostStep op s = .ok reply t →
    (∀ b, op ≠ .setFlag .n b ∧ op ≠ .setFlag .z b) → FlagsAgree t) ∧
  ∀ (m : Memory) (v : Word), ¬FlagsAgree (State.construct m v)

/-! ### Addressing -/

/-- R89, whole: the formula with the full 16-bit offset, strict, and dependent on the base's low byte only. -/
def Obligations.PageCrossFormula : Prop :=
  ∀ base offset : Word,
    (pageCross base offset = true ↔ base.toNat % 256 + offset.toNat > 0x100) ∧
    (base.toNat % 256 + offset.toNat = 0x100 → pageCross base offset = false) ∧
    ∀ base' : Word, base.toNat % 256 = base'.toNat % 256 → pageCross base offset = pageCross base' offset

/-! ### The handlers: completion, result and frame -/

/-- NOP's handler completes from every state: one cycle, nothing else (43_nop.md; the fetch stands before it, log entry 5). -/
def Obligations.NopCompletes : Prop :=
  ∀ s : State, exec .nop s = .next { s with cyc := s.cyc + 1 }

/-- LDA immediate's handler completes from every state: A and its N and Z, nothing else (44_lda.md; log entry 5). -/
def Obligations.LdaImmediateCompletes : Prop :=
  ∀ (v : Byte) (s : State), exec (.ldaImm v) s = .next (loaded v.toNat s)

/-- The four word loads' handlers complete from every state whose data word is inside the space: A takes the stored word, N
and Z follow it, CYC takes the resolve cycles, and nothing else changes (44_lda.md, 41_addressing.md section 3; that an
indexed address does not wrap is D3; log entry 5). -/
def Obligations.WordLoadsComplete : Prop :=
  ∀ (w : Word) (z : Byte) (s : State),
    (w.toNat ≤ 0xFFFE → exec (.ldaAbs w) s =
      .next (loaded (storedWord s.mem w.toNat) { s with cyc := s.cyc + 1 })) ∧
    (w.toNat + s.x.toNat ≤ 0xFFFE → exec (.ldaAbsX w) s =
      .next (loaded (storedWord s.mem (w.toNat + s.x.toNat))
        { s with cyc := s.cyc + 1 + penalty w.toNat s.x.toNat })) ∧
    (w.toNat + s.y.toNat ≤ 0xFFFE → exec (.ldaAbsY w) s =
      .next (loaded (storedWord s.mem (w.toNat + s.y.toNat))
        { s with cyc := s.cyc + 1 + penalty w.toNat s.y.toNat })) ∧
    exec (.ldaZp z) s = .next (loaded (storedWord s.mem z.toNat) { s with cyc := s.cyc + 1 })

/-- The frame of every handler, through the read of one byte: PC, X, Y, RESET_VECTOR, the six flags no load writes and every
byte of memory are kept; NOP keeps A, N and Z as well (43_nop.md, 44_lda.md "Common to all five"). -/
def Obligations.HandlerFrame : Prop :=
  ∀ (i : Instr) (s t : State), exec i s = .next t →
    t.pc = s.pc ∧ t.x = s.x ∧ t.y = s.y ∧ t.resetVector = s.resetVector ∧
    t.flags = { s.flags with zero := t.flags.zero, negative := t.flags.negative } ∧
    (∀ a, t.mem.lookup a = s.mem.lookup a) ∧
    (i = .nop → t.a = s.a ∧ t.flags = s.flags)

/-- X plays no part in LDA absolute,Y, and Y none in LDA absolute,X (44_lda.md, the corner cases of the two). -/
def Obligations.EachIndexedLoadReadsItsOwnRegister : Prop :=
  ∀ (w v : Word) (s t : State),
    (exec (.ldaAbsY w) s = .next t → exec (.ldaAbsY w) { s with x := v } = .next { t with x := v }) ∧
    (exec (.ldaAbsX w) s = .next t → exec (.ldaAbsX w) { s with y := v } = .next { t with y := v })

/-! ### The step -/

/-- A step runs the decoded instruction: when the bytes at PC decode to `i` and `i` stands below 0xFFFF, the step is `exec i`
on the state whose PC is past the instruction's bytes and whose CYC has one more for each of them. The form is the model's
(log entry 5). -/
def Obligations.StepRunsTheDecodedInstruction : Prop :=
  ∀ (i : Instr) (rest : List Byte) (s : State), decode (s.mem.bytesAt s.pc.toNat 3) = .ok (i, rest) →
    i.wellFormed = true → FetchInside i s →
    step s = exec i (movedOn (instrLength i) (instrLength i) s)

/-- A whole NOP iteration: PC one on, two cycles (43_nop.md; that it needs PC below 0xFFFF is D2). -/
def Obligations.NopIteration : Prop :=
  ∀ s : State, s.pc.toNat ≤ 0xFFFE → s.mem.lookup s.pc.toNat = 0xEA#8 →
    step s = .next (movedOn 1 2 s)

/-- A whole LDA immediate iteration (44_lda.md). -/
def Obligations.LdaImmediateIteration : Prop :=
  ∀ s : State, s.pc.toNat + 2 ≤ 0xFFFF → s.mem.lookup s.pc.toNat = 0xA9#8 →
    step s = .next (loaded (s.mem.lookup (s.pc.toNat + 1)).toNat (movedOn 2 2 s))

/-- A whole LDA zero-page iteration: three cycles, and the word at 0xFF takes its high byte from 0x0100 (44_lda.md). -/
def Obligations.LdaZeroPageIteration : Prop :=
  ∀ s : State, s.pc.toNat + 2 ≤ 0xFFFF → s.mem.lookup s.pc.toNat = 0xA5#8 →
    step s = .next (loaded (storedWord s.mem (s.mem.lookup (s.pc.toNat + 1)).toNat) (movedOn 2 3 s))

/-- A whole LDA absolute iteration: four cycles (44_lda.md). -/
def Obligations.LdaAbsoluteIteration : Prop :=
  ∀ s : State, s.pc.toNat + 3 ≤ 0xFFFF → s.mem.lookup s.pc.toNat = 0xAD#8 →
    storedWord s.mem (s.pc.toNat + 1) ≤ 0xFFFE →
    step s = .next (loaded (storedWord s.mem (storedWord s.mem (s.pc.toNat + 1))) (movedOn 3 4 s))

/-- Whole LDA absolute,X and absolute,Y iterations: four cycles, five on page-cross (44_lda.md; no wrap is D3). -/
def Obligations.LdaIndexedIterations : Prop :=
  ∀ (s : State) (base : Nat), base = storedWord s.mem (s.pc.toNat + 1) → s.pc.toNat + 3 ≤ 0xFFFF →
    (s.mem.lookup s.pc.toNat = 0xBD#8 → base + s.x.toNat ≤ 0xFFFE →
      step s = .next (loaded (storedWord s.mem (base + s.x.toNat)) (movedOn 3 (4 + penalty base s.x.toNat) s))) ∧
    (s.mem.lookup s.pc.toNat = 0xB9#8 → base + s.y.toNat ≤ 0xFFFE →
      step s = .next (loaded (storedWord s.mem (base + s.y.toNat)) (movedOn 3 (4 + penalty base s.y.toNat) s)))

/-- An unrecognized opcode: the halt reports the byte and its address, PC stays past the byte, CYC is as before the fetch, and
nothing else changes (40_fetch_dispatch.md section 5, D5 and C5). As a step it is a next state (log entry 1). -/
def Obligations.UnrecognizedOpcodeHalts : Prop :=
  ∀ s : State, s.pc.toNat ≤ 0xFFFE → ¬Recognized (s.mem.lookup s.pc.toNat) →
    iteration s = .unrecognized (s.mem.lookup s.pc.toNat) s.pc (movedOn 1 0 s) ∧
    step s = .next (movedOn 1 0 s)

/-- Fetch faults, in the order of 60_exceptions.md section 4: any opcode byte at 0xFFFF (D2), before the lookup; an operand
byte at 0xFFFF (D2); an operand word at 0xFFFF (bus) or at 0xFFFE (D2). -/
def Obligations.FetchFaults : Prop :=
  ∀ s : State,
    (s.pc.toNat = 0xFFFF → step s = .fault (.valueRangeFault .pc 0x10000)) ∧
    (s.pc.toNat = 0xFFFE → s.mem.lookup 0xFFFE = 0xA9#8 ∨ s.mem.lookup 0xFFFE = 0xA5#8 →
      step s = .fault (.valueRangeFault .pc 0x10000)) ∧
    (s.pc.toNat = 0xFFFE →
      s.mem.lookup 0xFFFE = 0xAD#8 ∨ s.mem.lookup 0xFFFE = 0xBD#8 ∨ s.mem.lookup 0xFFFE = 0xB9#8 →
      step s = .fault (.boundsFault 0xFFFF 2)) ∧
    (s.pc.toNat = 0xFFFD →
      s.mem.lookup 0xFFFD = 0xAD#8 ∨ s.mem.lookup 0xFFFD = 0xBD#8 ∨ s.mem.lookup 0xFFFD = 0xB9#8 →
      step s = .fault (.valueRangeFault .pc 0x10000))

/-- Data faults: a load whose data word is not inside the space raises the bus's fault with the unwrapped address
(41_addressing.md section 3, D3), and no other handler faults. -/
def Obligations.DataReadFaults : Prop :=
  ∀ (i : Instr) (s : State) (f : Fault),
    exec i s = .fault f ↔ ∃ ea, dataAddress i s = some ea ∧ 0xFFFE < ea ∧ f = .boundsFault ea 2

/-- What a program must do, and that it is enough: an instruction at PC steps without a fault exactly when it stands below
0xFFFF and its data word is inside the space (70_reset_and_hazards.md section 4, marked derived). -/
def Obligations.StepIsSafeExactlyWhenInside : Prop :=
  ∀ (i : Instr) (s : State), StandsAtPc i s → (StepSafe s ↔ FetchInside i s ∧ DataInside i s)

/-- No step and no execute call is refused: the block has no instruction without a meaning (40_fetch_dispatch.md section 3). -/
def Obligations.NothingIsRefusedInExecution : Prop :=
  ∀ (s : State) (r : Refusal) (maxCycles : Nat), step s ≠ .refused r ∧ execute maxCycles s ≠ .refused r

/-- Cost and flow of an iteration that continues: the instruction that stood at PC moved PC by its length and CYC by its total
cost, which is 2 to 5 (41_addressing.md section 4, marked derived; 40_fetch_dispatch.md section 7). -/
def Obligations.ContinuingIterationCostAndFlow : Prop :=
  ∀ s t : State, iteration s = .continues t →
    ∃ i, StandsAtPc i s ∧ t.pc.toNat = s.pc.toNat + instrLength i ∧ t.cyc = s.cyc + totalCycles i s ∧
      2 ≤ totalCycles i s ∧ totalCycles i s ≤ 5

/-- The machine's frame: no step writes memory, X, Y or RESET_VECTOR, and PC only moves forward (20_memory.md section 1,
10_state.md). -/
def Obligations.StepFrame : Prop :=
  ∀ s t : State, step s = .next t →
    t.mem = s.mem ∧ (∀ a, t.mem.lookup a = s.mem.lookup a) ∧ t.x = s.x ∧ t.y = s.y ∧
    t.resetVector = s.resetVector ∧ s.pc.toNat < t.pc.toNat ∧ s.cyc ≤ t.cyc

/-- The machine's invariant is kept by every step: the memory stays canonical (log entry 2) and N and Z are never both set
(42_flags_alu.md section 4). -/
def Obligations.StepKeepsInvariant : Prop := ∀ s t : State, Inv s → step s = .next t → Inv t

/-- The machine's invariant at reset. -/
def Obligations.ResetHasInvariant : Prop := Inv State.reset

/-- No flag changes how an iteration goes: from other flags it ends alike, with the same PC, A, X, Y, CYC and memory
(10_state.md section 4). -/
def Obligations.FlagsSteerNothing : Prop :=
  ∀ (s : State) (p : Flags),
    (∀ t, iteration s = .continues t → ∃ q, iteration { s with flags := p } = .continues { t with flags := q } ∧
      ((q = p ∧ t.flags = s.flags) ∨ q = { p with zero := t.flags.zero, negative := t.flags.negative })) ∧
    (∀ op addr t, iteration s = .unrecognized op addr t →
      iteration { s with flags := p } = .unrecognized op addr { t with flags := p }) ∧
    ∀ f, iteration s = .faulted f → iteration { s with flags := p } = .faulted f

/-- An iteration depends on memory only through the bytes of its listed accesses (20_memory.md section 5; the list is the
model's reading of that table). -/
def Obligations.IterationReadsOnlyItsAccesses : Prop :=
  ∀ (s : State) (m : Memory),
    (∀ access, access ∈ accesses s → ∀ k, k < access.width →
      m.lookup (access.addr + k) = s.mem.lookup (access.addr + k)) →
    iteration { s with mem := m } = iterationEndOver m (iteration s)

/-- The accesses of an instruction that is fetched without a fault, in order and by width (20_memory.md section 5, marked
derived). -/
def Obligations.AccessesByInstruction : Prop :=
  ∀ (i : Instr) (s : State), StandsAtPc i s → FetchInside i s →
    accesses s = ⟨s.pc.toNat, 1⟩ ::
      ((if instrLength i = 1 then [] else [⟨s.pc.toNat + 1, instrLength i - 1⟩]) ++
        match dataAddress i s with
        | none => []
        | some ea => [⟨ea, 2⟩])

/-- An instruction word placed at PC is what the next step runs (log entry 4): the word of `encode i`, least significant byte
first, decodes to `i`, and from the state with it placed `i` stands at PC and the step is `exec i` past the fetch (log entry
5). -/
def Obligations.PlacedWordIsRunNext : Prop :=
  ∀ (i : Instr) (s : State) (w : Nat), s.mem.wf = true → FetchInside i s →
    w = ((encode i).getD 0 0).toNat + 0x100 * ((encode i).getD 1 0).toNat + 0x10000 * ((encode i).getD 2 0).toNat →
    decodeTableWord (8 * instrLength i) w = some i ∧
    StandsAtPc i (s.withFetchWord (8 * instrLength i) w) ∧
    step (s.withFetchWord (8 * instrLength i) w) =
      exec i (movedOn (instrLength i) (instrLength i) (s.withFetchWord (8 * instrLength i) w))

/-! ### The execute call -/

/-- `execute` satisfies the loop of R70: the budget test on CYC itself, then one iteration, then the rest of the loop
(40_fetch_dispatch.md section 1; the return value is D5 and D6). -/
def Obligations.ExecuteSatisfiesTheLoop : Prop :=
  ∀ (maxCycles : Nat) (s : State),
    execute maxCycles s =
      if s.cyc < maxCycles then
        match iteration s with
        | .continues t => execute maxCycles t
        | .unrecognized op addr t => .ok t.cyc (.unrecognized op addr) t
        | .faulted f => .fault f
        | .refused r => .refused r
      else .ok s.cyc .budget s

/-- A spent budget does no work (40_fetch_dispatch.md sections 1 and 6, D6), and `execute(0)` on a fresh core returns 0. -/
def Obligations.SpentBudgetDoesNoWork : Prop :=
  (∀ (maxCycles : Nat) (s : State), maxCycles ≤ s.cyc → execute maxCycles s = .ok s.cyc .budget s) ∧
  ∀ (m : Memory) (v : Word), execute 0 (State.construct m v) = .ok 0 .budget (State.construct m v)

/-- Overshoot: a call that works and ends by its budget returns at least `maxCycles` and at most 4 more; a call that halts
returns less than `maxCycles`. The count returned is the counter (40_fetch_dispatch.md section 6, marked derived). -/
def Obligations.OvershootIsAtMostFour : Prop :=
  ∀ (maxCycles c : Nat) (reason : StopReason) (s t : State), s.cyc < maxCycles →
    execute maxCycles s = .ok c reason t →
    c = t.cyc ∧ (reason = .budget → maxCycles ≤ c ∧ c ≤ maxCycles + 4) ∧
    (reason ≠ .budget → s.cyc ≤ c ∧ c < maxCycles)

/-- Termination: the call's result is reached within half its budget in iterations, rounded up (40_fetch_dispatch.md
section 6, marked derived). That `executeLoop` is cut off after `fuel` iterations is the model's form (log entry 6). -/
def Obligations.HalfTheBudgetInIterationsIsEnough : Prop :=
  ∀ (fuel maxCycles : Nat) (s : State), (maxCycles - s.cyc + 1) / 2 ≤ fuel →
    executeLoop fuel maxCycles s = execute maxCycles s

/-- A call continues from the state the call before it left: after a call that ended by its budget, a call with a budget no
smaller ends as if it had been made first (45_host_interface.md on `execute`; the cumulative count is D6). -/
def Obligations.LaterCallContinuesEarlierCall : Prop :=
  ∀ (m n c : Nat) (s t : State), m ≤ n → execute m s = .ok c .budget t → execute n t = execute n s

/-- `execute(CYC + 1)` runs exactly one iteration (60_exceptions.md section 9, marked derived). -/
def Obligations.BudgetOfOneStepsOnce : Prop :=
  ∀ s : State, execute (s.cyc + 1) s =
    match iteration s with
    | .continues t => .ok t.cyc .budget t
    | .unrecognized op addr t => .ok t.cyc (.unrecognized op addr) t
    | .faulted f => .fault f
    | .refused r => .refused r

/-! ### Construction, reset and the host -/

/-- R146, whole: every field after construction; the request with the vector left out takes 0xFFFC. -/
def Obligations.ConstructionValues : Prop :=
  (∀ (m : Memory) (v : Word), constructCore m (v.toNat : Int) = .next
    { pc := 0#16, a := 0#16, x := 0#16, y := 0#16, cyc := 0, resetVector := v, mem := m
      flags := ⟨false, false, false, false, false, false, false, false⟩ }) ∧
  ∀ m : Memory, constructCore m = constructCore m 0xFFFC

/-- R147, whole: reset takes PC to the vector's value and changes nothing else, and again the same. -/
def Obligations.ResetSetsOnlyPc : Prop :=
  ∀ s : State, hostStep .reset s = .ok .nothing { s with pc := s.resetVector } ∧
    hostStep .reset { s with pc := s.resetVector } = .ok .nothing { s with pc := s.resetVector }

/-- The state after reset is a fresh core with the default vector after one `reset()`, over a memory that lists nothing: PC is
0xFFFC and the rest is as constructed. Which moment and which memory stand for "after reset" is the model's choice (log
entries 2 and 3). -/
def Obligations.ResetStateIsFreshCoreAfterReset : Prop :=
  ∃ s, constructCore [] = .next s ∧ hostStep .reset s = .ok .nothing State.reset ∧
    State.reset.pc = 0xFFFC#16 ∧ State.reset.a = 0#16 ∧ State.reset.cyc = 0 ∧ Sys2Proof.core.reset = State.reset

/-- R114, whole: the getters return the full 16-bit value and change nothing, and after a word load the accumulator getter
may return a value above 0xFF. -/
def Obligations.GettersReturnTheRegisters : Prop :=
  (∀ s : State, hostStep .getA s = .ok (.word s.a) s ∧ hostStep .getX s = .ok (.word s.x) s ∧
    hostStep .getY s = .ok (.word s.y) s) ∧
  ∃ (w v : Word) (s t : State), exec (.ldaAbs w) s = .next t ∧ hostStep .getA t = .ok (.word v) t ∧ 0xFF < v.toNat

/-- The setters: A recomputes N and Z; X and Y change no flag; a value above 0xFFFF is a fault that changes nothing, after
which the host may go on (45_host_interface.md; the X and Y faults are D20). -/
def Obligations.RegisterSetters : Prop :=
  ∀ (v : Nat) (s : State),
    (v ≤ 0xFFFF →
      hostStep (.setA v) s = .ok .nothing (loaded v s) ∧
      hostStep (.setX v) s = .ok .nothing { s with x := BitVec.ofNat 16 v } ∧
      hostStep (.setY v) s = .ok .nothing { s with y := BitVec.ofNat 16 v }) ∧
    (0xFFFF < v →
      hostStep (.setA v) s = .argumentFault (.valueRangeFault .a v) s ∧
      hostStep (.setX v) s = .argumentFault (.valueRangeFault .x v) s ∧
      hostStep (.setY v) s = .argumentFault (.valueRangeFault .y v) s)

/-- A flag written is the flag read, the other seven are kept, and nothing but the flags changes; reading a flag returns the
field of its name and changes nothing (45_host_interface.md, D13). -/
def Obligations.FlagAccessors : Prop :=
  (∀ s : State,
    hostStep (.getFlag .n) s = .ok (.flag s.flags.negative) s ∧ hostStep (.getFlag .v) s = .ok (.flag s.flags.overflow) s ∧
    hostStep (.getFlag .e) s = .ok (.flag s.flags.expansion) s ∧
    hostStep (.getFlag .b) s = .ok (.flag s.flags.breakCommand) s ∧
    hostStep (.getFlag .d) s = .ok (.flag s.flags.decimal) s ∧
    hostStep (.getFlag .i) s = .ok (.flag s.flags.interruptDisable) s ∧
    hostStep (.getFlag .z) s = .ok (.flag s.flags.zero) s ∧ hostStep (.getFlag .c) s = .ok (.flag s.flags.carry) s) ∧
  ∀ (f g : Flag) (b : Bool) (s : State),
    ∃ t, hostStep (.setFlag f b) s = .ok .nothing t ∧ t = { s with flags := t.flags } ∧
      hostStep (.getFlag f) t = .ok (.flag b) t ∧
      (g ≠ f → t.flags.get g = s.flags.get g)

/-- Only the host's X setter writes X, the indexed load reads all 16 bits of it, and writing it changes no flag; Y alike
(10_state.md section 3). That a setter which returns has stored the value given, so that a value above 16 bits does not
return, is decision D20 (45_host_interface.md). -/
def Obligations.IndexRegistersBelongToTheHost : Prop :=
  (∀ s t : State, step s = .next t → t.x = s.x ∧ t.y = s.y) ∧
  (∀ (op : HostOp) (reply : Reply) (s t : State), hostStep op s = .ok reply t →
    ((∀ v, op ≠ .setX v) → t.x = s.x) ∧ ((∀ v, op ≠ .setY v) → t.y = s.y)) ∧
  (∀ (v : Int) (reply : Reply) (s t : State),
    (hostStep (.setX v) s = .ok reply t → t.flags = s.flags ∧ (t.x.toNat : Int) = v) ∧
    (hostStep (.setY v) s = .ok reply t → t.flags = s.flags ∧ (t.y.toNat : Int) = v)) ∧
  ∀ (w : Word) (s : State),
    (w.toNat + s.x.toNat ≤ 0xFFFE → ∃ t, exec (.ldaAbsX w) s = .next t ∧
      t.a.toNat = storedWord s.mem (w.toNat + s.x.toNat)) ∧
    (w.toNat + s.y.toNat ≤ 0xFFFE → ∃ t, exec (.ldaAbsY w) s = .next t ∧
      t.a.toNat = storedWord s.mem (w.toNat + s.y.toNat))

/-- The host reads PC and changes nothing by it; only `reset` and `execute` move PC, only `execute` moves CYC, and no operation
writes RESET_VECTOR (10_state.md sections 2 and 5, 45_host_interface.md; D25). -/
def Obligations.OnlyResetAndExecuteMovePc : Prop :=
  (∀ s : State, hostStep .getPc s = .ok (.word s.pc) s) ∧
  ∀ (op : HostOp) (reply : Reply) (s t : State), hostStep op s = .ok reply t →
    (op ≠ .reset → (∀ m, op ≠ .execute m) → t.pc = s.pc) ∧
    ((∀ m, op ≠ .execute m) → t.cyc = s.cyc) ∧ s.cyc ≤ t.cyc ∧ t.resetVector = s.resetVector

/-- A negative argument of any operation, and a reset vector outside 16 bits, is refused before anything happens
(00_scope.md section 5, 45_host_interface.md; D15 and D24). Which argument a refusal names, where both arguments of a bus
write are negative, is the model's choice: the address (log entry 9). -/
def Obligations.ArgumentsOutsideTheirTypeAreRefused : Prop :=
  ∀ (v w : Int) (m : Memory) (s : State),
    (v < 0 →
      hostStep (.execute v) s = .refused (.argumentOutsideType v) ∧
      hostStep (.setA v) s = .refused (.argumentOutsideType v) ∧
      hostStep (.setX v) s = .refused (.argumentOutsideType v) ∧
      hostStep (.setY v) s = .refused (.argumentOutsideType v) ∧
      hostStep (.readByte v) s = .refused (.argumentOutsideType v) ∧
      hostStep (.readWord v) s = .refused (.argumentOutsideType v) ∧
      hostStep (.writeByte v w) s = .refused (.argumentOutsideType v) ∧
      hostStep (.writeWord v w) s = .refused (.argumentOutsideType v) ∧
      (0 ≤ w → hostStep (.writeByte w v) s = .refused (.argumentOutsideType v) ∧
        hostStep (.writeWord w v) s = .refused (.argumentOutsideType v))) ∧
    (v < 0 ∨ 0xFFFF < v → constructCore m v = .refused (.argumentOutsideType v))

/-- Every session of host operations keeps the canonical memory (log entry 2) and the reset vector, and never lowers CYC
(20_memory.md, 10_state.md section 5). -/
def Obligations.SessionsKeepCanonicalMemory : Prop :=
  ∀ (ops : List HostOp) (reply : Reply) (s t : State), s.mem.wf = true → session ops s = .ok reply t →
    t.mem.wf = true ∧ t.resetVector = s.resetVector ∧ s.cyc ≤ t.cyc

/-- A byte the host writes at PC is the next opcode fetched: no byte is kept between calls (20_memory.md section 8, D16). -/
def Obligations.HostWriteIsSeenByTheNextFetch : Prop :=
  ∀ (op : Byte) (s : State), s.mem.wf = true → s.pc.toNat ≤ 0xFFFE →
    ∃ t, hostStep (.writeByte s.pc.toNat op.toNat) s = .ok .nothing t ∧ t = { s with mem := t.mem } ∧
      fetchByte t = .ok (op, movedOn 1 1 t)

/-- After a fault inside a call the session has no state; after a halt it goes on from the byte after the unrecognized one
(45_host_interface.md, 60_exceptions.md section 2; D4 and D5). -/
def Obligations.SessionEndsAtAFaultAndOutlivesAHalt : Prop :=
  ∀ (maxCycles : Nat) (ops : List HostOp) (s : State),
    (∀ f, execute maxCycles s = .fault f → session (.execute maxCycles :: ops) s = .sessionFault f) ∧
    ∀ (op : Byte) (addr : Word) (c : Nat) (t : State), execute maxCycles s = .ok c (.unrecognized op addr) t →
      t.pc = addr + 1#16 ∧ session (.execute maxCycles :: ops) s = session ops t

/-- The host's bus operations are the bus contract: a read returns what memory holds and changes nothing; a write stores its
bytes, keeps every other byte and changes no core state; each ends in the bus's fault outside the space and, for a write, on a
value too wide. A write that faults, like a register setter that does, has changed nothing, and the session goes on from the
same state (20_memory.md section 2, 45_host_interface.md; D4, D14, D17, D21). That a read that faults ends the session is
log entry 7. -/
def Obligations.HostBusOperationsAreTheBusContract : Prop :=
  (∀ (a v : Nat) (s : State),
    (a < 65536 → hostStep (.readByte a) s = .ok (.byte (s.mem.lookup a)) s) ∧
    (65536 ≤ a → hostStep (.readByte a) s = .sessionFault (.boundsFault a 1)) ∧
    (a + 1 < 65536 → ∃ w, hostStep (.readWord a) s = .ok (.word w) s ∧ w.toNat = storedWord s.mem a) ∧
    (65536 ≤ a + 1 → hostStep (.readWord a) s = .sessionFault (.boundsFault a 2)) ∧
    (s.mem.wf = true → a < 65536 → v ≤ 255 → ∃ m, hostStep (.writeByte a v) s = .ok .nothing { s with mem := m } ∧
      (m.lookup a).toNat = v ∧ ∀ b, b ≠ a → m.lookup b = s.mem.lookup b) ∧
    (a < 65536 → 255 < v → hostStep (.writeByte a v) s = .argumentFault (.valueRangeFault .byte v) s) ∧
    (65536 ≤ a → hostStep (.writeByte a v) s = .argumentFault (.boundsFault a 1) s) ∧
    (s.mem.wf = true → a + 1 < 65536 → v ≤ 65535 → ∃ m, hostStep (.writeWord a v) s = .ok .nothing { s with mem := m } ∧
      storedWord m a = v ∧ ∀ b, b ≠ a → b ≠ a + 1 → m.lookup b = s.mem.lookup b) ∧
    (a + 1 < 65536 → 65535 < v → hostStep (.writeWord a v) s = .argumentFault (.valueRangeFault .word v) s) ∧
    (65536 ≤ a + 1 → hostStep (.writeWord a v) s = .argumentFault (.boundsFault a 2) s)) ∧
  ∀ (op : HostOp) (f : Fault) (s t : State), hostStep op s = .argumentFault f t →
    t = s ∧ ∀ ops, session (op :: ops) s = session ops s
end

