-- ==== Sys2Proof/Laws/State.lean ====
section
/-! SUPPORT. One lemma per field per update of State, so that no later proof unfolds a record update. -/

namespace Sys2Proof.Machine

variable (s : State)

@[simp] theorem State.addCycles_pc (k : Nat) : (s.addCycles k).pc = s.pc := rfl
@[simp] theorem State.addCycles_a (k : Nat) : (s.addCycles k).a = s.a := rfl
@[simp] theorem State.addCycles_x (k : Nat) : (s.addCycles k).x = s.x := rfl
@[simp] theorem State.addCycles_y (k : Nat) : (s.addCycles k).y = s.y := rfl
@[simp] theorem State.addCycles_flags (k : Nat) : (s.addCycles k).flags = s.flags := rfl
@[simp] theorem State.addCycles_cyc (k : Nat) : (s.addCycles k).cyc = s.cyc + k := rfl
@[simp] theorem State.addCycles_resetVector (k : Nat) : (s.addCycles k).resetVector = s.resetVector := rfl
@[simp] theorem State.addCycles_mem (k : Nat) : (s.addCycles k).mem = s.mem := rfl

@[simp] theorem State.compensate_pc : (s.compensate).pc = s.pc := rfl
@[simp] theorem State.compensate_a : (s.compensate).a = s.a := rfl
@[simp] theorem State.compensate_x : (s.compensate).x = s.x := rfl
@[simp] theorem State.compensate_y : (s.compensate).y = s.y := rfl
@[simp] theorem State.compensate_flags : (s.compensate).flags = s.flags := rfl
@[simp] theorem State.compensate_cyc : (s.compensate).cyc = s.cyc - haltCompensation := rfl
@[simp] theorem State.compensate_resetVector : (s.compensate).resetVector = s.resetVector := rfl
@[simp] theorem State.compensate_mem : (s.compensate).mem = s.mem := rfl

@[simp] theorem State.withPc_pc (v : Word) : (s.withPc v).pc = v := rfl
@[simp] theorem State.withPc_a (v : Word) : (s.withPc v).a = s.a := rfl
@[simp] theorem State.withPc_x (v : Word) : (s.withPc v).x = s.x := rfl
@[simp] theorem State.withPc_y (v : Word) : (s.withPc v).y = s.y := rfl
@[simp] theorem State.withPc_flags (v : Word) : (s.withPc v).flags = s.flags := rfl
@[simp] theorem State.withPc_cyc (v : Word) : (s.withPc v).cyc = s.cyc := rfl
@[simp] theorem State.withPc_resetVector (v : Word) : (s.withPc v).resetVector = s.resetVector := rfl
@[simp] theorem State.withPc_mem (v : Word) : (s.withPc v).mem = s.mem := rfl

@[simp] theorem State.withX_pc (v : Word) : (s.withX v).pc = s.pc := rfl
@[simp] theorem State.withX_a (v : Word) : (s.withX v).a = s.a := rfl
@[simp] theorem State.withX_x (v : Word) : (s.withX v).x = v := rfl
@[simp] theorem State.withX_y (v : Word) : (s.withX v).y = s.y := rfl
@[simp] theorem State.withX_flags (v : Word) : (s.withX v).flags = s.flags := rfl
@[simp] theorem State.withX_cyc (v : Word) : (s.withX v).cyc = s.cyc := rfl
@[simp] theorem State.withX_resetVector (v : Word) : (s.withX v).resetVector = s.resetVector := rfl
@[simp] theorem State.withX_mem (v : Word) : (s.withX v).mem = s.mem := rfl

@[simp] theorem State.withY_pc (v : Word) : (s.withY v).pc = s.pc := rfl
@[simp] theorem State.withY_a (v : Word) : (s.withY v).a = s.a := rfl
@[simp] theorem State.withY_x (v : Word) : (s.withY v).x = s.x := rfl
@[simp] theorem State.withY_y (v : Word) : (s.withY v).y = v := rfl
@[simp] theorem State.withY_flags (v : Word) : (s.withY v).flags = s.flags := rfl
@[simp] theorem State.withY_cyc (v : Word) : (s.withY v).cyc = s.cyc := rfl
@[simp] theorem State.withY_resetVector (v : Word) : (s.withY v).resetVector = s.resetVector := rfl
@[simp] theorem State.withY_mem (v : Word) : (s.withY v).mem = s.mem := rfl

@[simp] theorem State.withFlags_pc (p : Flags) : (s.withFlags p).pc = s.pc := rfl
@[simp] theorem State.withFlags_a (p : Flags) : (s.withFlags p).a = s.a := rfl
@[simp] theorem State.withFlags_x (p : Flags) : (s.withFlags p).x = s.x := rfl
@[simp] theorem State.withFlags_y (p : Flags) : (s.withFlags p).y = s.y := rfl
@[simp] theorem State.withFlags_flags (p : Flags) : (s.withFlags p).flags = p := rfl
@[simp] theorem State.withFlags_cyc (p : Flags) : (s.withFlags p).cyc = s.cyc := rfl
@[simp] theorem State.withFlags_resetVector (p : Flags) : (s.withFlags p).resetVector = s.resetVector := rfl
@[simp] theorem State.withFlags_mem (p : Flags) : (s.withFlags p).mem = s.mem := rfl

@[simp] theorem State.withMem_pc (m : Memory) : (s.withMem m).pc = s.pc := rfl
@[simp] theorem State.withMem_a (m : Memory) : (s.withMem m).a = s.a := rfl
@[simp] theorem State.withMem_x (m : Memory) : (s.withMem m).x = s.x := rfl
@[simp] theorem State.withMem_y (m : Memory) : (s.withMem m).y = s.y := rfl
@[simp] theorem State.withMem_flags (m : Memory) : (s.withMem m).flags = s.flags := rfl
@[simp] theorem State.withMem_cyc (m : Memory) : (s.withMem m).cyc = s.cyc := rfl
@[simp] theorem State.withMem_resetVector (m : Memory) : (s.withMem m).resetVector = s.resetVector := rfl
@[simp] theorem State.withMem_mem (m : Memory) : (s.withMem m).mem = m := rfl

@[simp] theorem State.withA_pc (v : Word) : (s.withA v).pc = s.pc := rfl
@[simp] theorem State.withA_a (v : Word) : (s.withA v).a = v := rfl
@[simp] theorem State.withA_x (v : Word) : (s.withA v).x = s.x := rfl
@[simp] theorem State.withA_y (v : Word) : (s.withA v).y = s.y := rfl
@[simp] theorem State.withA_flags (v : Word) : (s.withA v).flags = setFromValue v s.flags := rfl
@[simp] theorem State.withA_cyc (v : Word) : (s.withA v).cyc = s.cyc := rfl
@[simp] theorem State.withA_resetVector (v : Word) : (s.withA v).resetVector = s.resetVector := rfl
@[simp] theorem State.withA_mem (v : Word) : (s.withA v).mem = s.mem := rfl

@[simp] theorem movedOn_pc (n c : Nat) : (Safety.movedOn n c s).pc = s.pc + BitVec.ofNat 16 n := rfl
@[simp] theorem movedOn_a (n c : Nat) : (Safety.movedOn n c s).a = s.a := rfl
@[simp] theorem movedOn_x (n c : Nat) : (Safety.movedOn n c s).x = s.x := rfl
@[simp] theorem movedOn_y (n c : Nat) : (Safety.movedOn n c s).y = s.y := rfl
@[simp] theorem movedOn_flags (n c : Nat) : (Safety.movedOn n c s).flags = s.flags := rfl
@[simp] theorem movedOn_cyc (n c : Nat) : (Safety.movedOn n c s).cyc = s.cyc + c := rfl
@[simp] theorem movedOn_resetVector (n c : Nat) : (Safety.movedOn n c s).resetVector = s.resetVector := rfl
@[simp] theorem movedOn_mem (n c : Nat) : (Safety.movedOn n c s).mem = s.mem := rfl

@[simp] theorem loaded_pc (v : Nat) : (Safety.loaded v s).pc = s.pc := rfl
@[simp] theorem loaded_a (v : Nat) : (Safety.loaded v s).a = BitVec.ofNat 16 v := rfl
@[simp] theorem loaded_x (v : Nat) : (Safety.loaded v s).x = s.x := rfl
@[simp] theorem loaded_y (v : Nat) : (Safety.loaded v s).y = s.y := rfl
@[simp] theorem loaded_flags (v : Nat) : (Safety.loaded v s).flags = { s.flags with zero := decide (v = 0), negative := decide (v / 0x80 % 2 = 1) } := rfl
@[simp] theorem loaded_cyc (v : Nat) : (Safety.loaded v s).cyc = s.cyc := rfl
@[simp] theorem loaded_resetVector (v : Nat) : (Safety.loaded v s).resetVector = s.resetVector := rfl
@[simp] theorem loaded_mem (v : Nat) : (Safety.loaded v s).mem = s.mem := rfl

@[simp] theorem reset_mem : State.reset.mem = [] := rfl
@[simp] theorem reset_pc : State.reset.pc = 0xFFFC#16 := rfl
@[simp] theorem reset_flags : State.reset.flags = Flags.clear := rfl

end Sys2Proof.Machine
end

