-- ==== Sys2Proof/Laws/Decode.lean ====
section
/-! SUPPORT. The opcode table, the decoder and the byte order of an operand word. -/

namespace Sys2Proof

open Sys2Proof.Safety (Recognized)

/-- No two rows of the table share an opcode byte. -/
theorem opcodeTable_no_overlap : (opcodeTable.map Prod.fst).Pairwise (· ≠ ·) := by decide

@[simp] theorem lookupOpcode_EA : lookupOpcode 0xEA#8 = some (.imp .nop) := rfl
@[simp] theorem lookupOpcode_A9 : lookupOpcode 0xA9#8 = some (.b8 .ldaImm) := rfl
@[simp] theorem lookupOpcode_AD : lookupOpcode 0xAD#8 = some (.w16 .ldaAbs) := rfl
@[simp] theorem lookupOpcode_BD : lookupOpcode 0xBD#8 = some (.w16 .ldaAbsX) := rfl
@[simp] theorem lookupOpcode_B9 : lookupOpcode 0xB9#8 = some (.w16 .ldaAbsY) := rfl
@[simp] theorem lookupOpcode_A5 : lookupOpcode 0xA5#8 = some (.b8 .ldaZp) := rfl

theorem lookupOpcode_none {op : Byte} (h : ¬Recognized op) : lookupOpcode op = none := by
  simp only [Recognized, not_or] at h
  simp only [lookupOpcode, opcodeTable, List.find?, Option.map_eq_none_iff]
  simp [beq_eq_false_iff_ne.2 (Ne.symm h.1), beq_eq_false_iff_ne.2 (Ne.symm h.2.1),
    beq_eq_false_iff_ne.2 (Ne.symm h.2.2.1), beq_eq_false_iff_ne.2 (Ne.symm h.2.2.2.1),
    beq_eq_false_iff_ne.2 (Ne.symm h.2.2.2.2.1), beq_eq_false_iff_ne.2 (Ne.symm h.2.2.2.2.2)]

/-- What a table entry stands for: the six rows, or none. -/
theorem lookupOpcode_cases (op : Byte) :
    (op = 0xEA#8 ∧ lookupOpcode op = some (.imp .nop)) ∨ (op = 0xA9#8 ∧ lookupOpcode op = some (.b8 .ldaImm)) ∨
    (op = 0xAD#8 ∧ lookupOpcode op = some (.w16 .ldaAbs)) ∨ (op = 0xBD#8 ∧ lookupOpcode op = some (.w16 .ldaAbsX)) ∨
    (op = 0xB9#8 ∧ lookupOpcode op = some (.w16 .ldaAbsY)) ∨ (op = 0xA5#8 ∧ lookupOpcode op = some (.b8 .ldaZp)) ∨
    (¬Recognized op ∧ lookupOpcode op = none) := by
  by_cases h : Recognized op
  · obtain rfl | rfl | rfl | rfl | rfl | rfl := h <;> simp
  · exact .inr (.inr (.inr (.inr (.inr (.inr ⟨h, lookupOpcode_none h⟩)))))

theorem wordOfBytes_eq_append (lo hi : Byte) : wordOfBytes lo hi = hi ++ lo := by
  apply BitVec.eq_of_getLsbD_eq
  intro i hi'
  simp only [wordOfBytes, BitVec.getLsbD_or, BitVec.getLsbD_setWidth, BitVec.getLsbD_shiftLeft, BitVec.getLsbD_append]
  by_cases h : i < 8
  · simp [h, hi']
  · simp [h, hi', show i - 8 < 16 by omega, BitVec.getLsbD_of_ge lo i (by omega)]

@[simp] theorem wordOfBytes_toNat (lo hi : Byte) : (wordOfBytes lo hi).toNat = lo.toNat + 0x100 * hi.toNat := by
  have := lo.isLt
  rw [wordOfBytes_eq_append, BitVec.toNat_append, ← Nat.shiftLeft_add_eq_or_of_lt (by omega), Nat.shiftLeft_eq]
  omega

@[simp] theorem loByte_toNat (w : Word) : (loByte w).toNat = w.toNat % 0x100 := by simp [loByte]

@[simp] theorem hiByte_toNat (w : Word) : (hiByte w).toNat = w.toNat / 0x100 := by
  have := w.isLt
  simp only [hiByte, BitVec.toNat_setWidth, BitVec.toNat_ushiftRight, Nat.shiftRight_eq_div_pow]
  omega

@[simp] theorem wordOfBytes_lo_hi (w : Word) : wordOfBytes (loByte w) (hiByte w) = w := by
  apply BitVec.eq_of_toNat_eq
  have := w.isLt
  simp only [wordOfBytes_toNat, loByte_toNat, hiByte_toNat]
  omega

@[simp] theorem loByte_wordOfBytes (lo hi : Byte) : loByte (wordOfBytes lo hi) = lo := by
  apply BitVec.eq_of_toNat_eq
  have := lo.isLt
  simp only [loByte_toNat, wordOfBytes_toNat]
  omega

@[simp] theorem hiByte_wordOfBytes (lo hi : Byte) : hiByte (wordOfBytes lo hi) = hi := by
  apply BitVec.eq_of_toNat_eq
  have := lo.isLt
  simp only [hiByte_toNat, wordOfBytes_toNat]
  omega

theorem encode_length (i : Instr) : (encode i).length = instrLength i := by cases i <;> rfl

end Sys2Proof
end

