-- ==== Sys2Proof/Laws/Memory.lean ====
section
/-! SUPPORT. The memory image: what a store does to every read, and that every memory operation keeps the canonical form. -/

namespace Sys2Proof.Machine

/-- Nothing below the lower bound of a canonical list is listed. -/
theorem lookup_below {lo a : Nat} {m : Memory} (h : Memory.wfFrom lo m = true) (ha : a < lo) :
    m.lookup a = Config.unlistedByte := by
  induction m generalizing lo with
  | nil => rfl
  | cons c m ih =>
    obtain ⟨k, v⟩ := c
    simp only [Memory.wfFrom, Bool.and_eq_true, decide_eq_true_eq] at h
    simp only [Memory.lookup]
    rw [if_neg (by omega), ih h.2 (by omega)]

theorem wfFrom_mono {lo lo' : Nat} {m : Memory} (hl : lo' ≤ lo) (h : Memory.wfFrom lo m = true) :
    Memory.wfFrom lo' m = true := by
  cases m with
  | nil => rfl
  | cons c m =>
    obtain ⟨k, v⟩ := c
    simp only [Memory.wfFrom, Bool.and_eq_true, decide_eq_true_eq] at h ⊢
    exact ⟨⟨⟨by omega, h.1.1.2⟩, h.1.2⟩, h.2⟩

/-- What every read gives after a store to a canonical image. -/
theorem lookup_store_from {lo : Nat} {m : Memory} (h : Memory.wfFrom lo m = true) (a b : Nat) (v : Byte) :
    (m.store a v).lookup b = if b = a then v else m.lookup b := by
  induction m generalizing lo with
  | nil =>
    simp only [Memory.store]
    split
    · next hv => split <;> simp [Memory.lookup, hv]
    · simp only [Memory.lookup, eq_comm]
  | cons c m ih =>
    obtain ⟨k, w⟩ := c
    simp only [Memory.wfFrom, Bool.and_eq_true, decide_eq_true_eq] at h
    have hm := ih h.2
    have hlow : ∀ c, c ≤ k → Memory.lookup m c = Config.unlistedByte := fun c hc => lookup_below h.2 (by omega)
    simp only [Memory.store]
    split
    · simp only [Memory.lookup, hm]
      split <;> split <;> first | rfl | omega
    · split
      · next hk =>
        subst hk
        split
        · next hv =>
          simp only [Memory.lookup]
          split
          · next hb => rw [hlow b (by omega), hv]
          · rw [if_neg (by omega)]
        · simp only [Memory.lookup]
          split <;> split <;> first | rfl | omega
      · split
        · next hv =>
          split
          · next hb =>
            simp only [Memory.lookup]
            rw [if_neg (by omega), hlow b (by omega), hv]
          · rfl
        · by_cases hab : b = a
          · simp [Memory.lookup, hab]
          · rw [if_neg hab, Memory.lookup, if_neg (Ne.symm hab)]

theorem lookup_store {m : Memory} (h : m.wf = true) (a b : Nat) (v : Byte) :
    (m.store a v).lookup b = if b = a then v else m.lookup b := lookup_store_from h a b v

theorem wfFrom_store {lo a : Nat} {m : Memory} (h : Memory.wfFrom lo m = true) (hlo : lo ≤ a)
    (ha : a < Config.memSize) (v : Byte) : Memory.wfFrom lo (m.store a v) = true := by
  induction m generalizing lo with
  | nil =>
    simp only [Memory.store]
    split
    · rfl
    · simp_all [Memory.wfFrom]
  | cons c m ih =>
    obtain ⟨k, w⟩ := c
    simp only [Memory.wfFrom, Bool.and_eq_true, decide_eq_true_eq] at h
    simp only [Memory.store]
    split
    · simp only [Memory.wfFrom, Bool.and_eq_true, decide_eq_true_eq]
      exact ⟨h.1, ih h.2 (by omega)⟩
    · split
      · split
        · exact wfFrom_mono (by omega) h.2
        · simp only [Memory.wfFrom, Bool.and_eq_true, decide_eq_true_eq]
          exact ⟨⟨⟨hlo, ha⟩, by assumption⟩, wfFrom_mono (by omega) h.2⟩
      · split
        · simp only [Memory.wfFrom, Bool.and_eq_true, decide_eq_true_eq]
          exact h
        · simp only [Memory.wfFrom, Bool.and_eq_true, decide_eq_true_eq]
          exact ⟨⟨⟨hlo, ha⟩, by assumption⟩, ⟨⟨by omega, h.1.1.2⟩, h.1.2⟩, h.2⟩

/-- A store inside the space keeps the canonical form. -/
theorem store_keeps_wf {m : Memory} (h : m.wf = true) {a : Nat} (ha : a < Config.memSize) (v : Byte) :
    (m.store a v).wf = true := wfFrom_store h (Nat.zero_le a) ha v

/-- Bytes stored anywhere keep the canonical form: those past the top are dropped. -/
theorem storeBytes_keeps_wf {m : Memory} (h : m.wf = true) (a : Nat) (vs : List Byte) :
    (m.storeBytes a vs).wf = true := by
  induction vs generalizing m a with
  | nil => exact h
  | cons v vs ih =>
    simp only [Memory.storeBytes]
    split
    · next ha => exact ih (store_keeps_wf h ha v) _
    · exact ih h _

/-- What every read gives after bytes are stored: inside the space and the stored range the stored byte, elsewhere the old. -/
theorem lookup_storeBytes {m : Memory} (h : m.wf = true) (a b : Nat) (vs : List Byte) :
    (m.storeBytes a vs).lookup b =
      if a ≤ b ∧ b < a + vs.length ∧ b < Config.memSize then vs.getD (b - a) 0 else m.lookup b := by
  induction vs generalizing m a with
  | nil => simp [Memory.storeBytes]; omega
  | cons v vs ih =>
    have hwf : Memory.wf (if a < Config.memSize then m.store a v else m) = true := by
      split
      · next ha => exact store_keeps_wf h ha v
      · exact h
    have hl : Memory.lookup (if a < Config.memSize then m.store a v else m) b =
        if b = a ∧ a < Config.memSize then v else m.lookup b := by
      split
      · next ha => simp [lookup_store h, ha]
      · next ha => simp [ha]
    simp only [Memory.storeBytes, List.length_cons]
    rw [ih hwf, hl]
    by_cases hab : b = a
    · subst hab
      by_cases hs : b < Config.memSize
      · rw [if_neg (by omega), if_pos ⟨rfl, hs⟩, if_pos ⟨by omega, by omega, hs⟩]; simp
      · rw [if_neg (by omega), if_neg (by omega), if_neg (by omega)]
    · by_cases hin : a + 1 ≤ b ∧ b < a + 1 + vs.length ∧ b < Config.memSize
      · rw [if_pos hin, if_pos ⟨by omega, by omega, hin.2.2⟩]
        obtain ⟨d, hd⟩ : ∃ d, b - a = d + 1 := ⟨b - a - 1, by omega⟩
        rw [hd, show b - (a + 1) = d by omega]; simp
      · rw [if_neg hin, if_neg (by omega), if_neg (by omega)]

/-- Consecutive bytes, split. -/
theorem Memory.bytesAt_add (m : Memory) (a n k : Nat) :
    m.bytesAt a (n + k) = m.bytesAt a n ++ m.bytesAt (a + n) k := by
  induction n generalizing a with
  | zero => simp [Memory.bytesAt]
  | succ n ih =>
    rw [show n + 1 + k = n + k + 1 by omega, show a + (n + 1) = a + 1 + n by omega]
    simp [Memory.bytesAt, ih]

/-- The memory after reset is canonical. -/
theorem reset_mem_wf : State.reset.mem.wf = true := rfl

/-- Everything a bus write of one byte can do. -/
theorem writeByte_eq (m : Memory) (a v : Nat) :
    writeByte m a v =
      if a ≤ 0xFFFF then
        if v ≤ 0xFF then .ok (m.store a (BitVec.ofNat 8 v)) else .error (.valueRangeFault .byte v)
      else .error (.boundsFault a 1) := by
  simp only [writeByte, Config.memSize, Nat.lt_succ_iff]

/-- Everything a bus write of one word can do. -/
theorem writeWord_eq (m : Memory) (a v : Nat) :
    writeWord m a v =
      if a ≤ 0xFFFE then
        if v ≤ 0xFFFF then
          .ok ((m.store a (BitVec.ofNat 8 (v % 0x100))).store (a + 1) (BitVec.ofNat 8 (v / 0x100)))
        else .error (.valueRangeFault .word v)
      else .error (.boundsFault a 2) := by
  have h : (a + 1 < Config.memSize) = (a ≤ 0xFFFE) := by simp only [Config.memSize, eq_iff_iff]; omega
  simp only [writeWord, h]

/-- A bus write of one byte that is accepted: the byte stored, in canonical form. -/
theorem writeByte_ok {m m' : Memory} {a v : Nat} (hw : writeByte m a v = .ok m') :
    a < Config.memSize ∧ v ≤ 0xFF ∧ m' = m.store a (BitVec.ofNat 8 v) := by
  simp only [writeByte] at hw
  split at hw
  · split at hw
    · cases hw; exact ⟨‹_›, ‹_›, rfl⟩
    · cases hw
  · cases hw

/-- A bus write of one word that is accepted: its two bytes stored, the low one lower. -/
theorem writeWord_ok {m m' : Memory} {a v : Nat} (hw : writeWord m a v = .ok m') :
    a + 1 < Config.memSize ∧ v ≤ 0xFFFF ∧
      m' = (m.store a (BitVec.ofNat 8 (v % 0x100))).store (a + 1) (BitVec.ofNat 8 (v / 0x100)) := by
  simp only [writeWord] at hw
  split at hw
  · split at hw
    · cases hw; exact ⟨‹_›, ‹_›, rfl⟩
    · cases hw
  · cases hw

theorem writeByte_keeps_wf {m m' : Memory} {a v : Nat} (h : m.wf = true) (hw : writeByte m a v = .ok m') :
    m'.wf = true := by
  obtain ⟨ha, -, rfl⟩ := writeByte_ok hw
  exact store_keeps_wf h ha _

theorem writeWord_keeps_wf {m m' : Memory} {a v : Nat} (h : m.wf = true) (hw : writeWord m a v = .ok m') :
    m'.wf = true := by
  obtain ⟨ha, -, rfl⟩ := writeWord_ok hw
  exact store_keeps_wf (store_keeps_wf h (by omega) _) ha _

end Sys2Proof.Machine
end

