-- ==== Sys2Proof/Laws/Ops.lean ====
section
/-! SUPPORT. One lemma per shared operation that says everything it can do; callers cite it and do not unfold it. -/

namespace Sys2Proof.Machine

open Sys2Proof.Safety

theorem readByte_eq (m : Memory) (a : Nat) :
    readByte m a = if a ≤ 0xFFFF then .ok (m.lookup a) else .error (.boundsFault a 1) := by
  simp only [readByte, Config.memSize, Nat.lt_succ_iff]

theorem readWord_eq (m : Memory) (a : Nat) :
    readWord m a = if a ≤ 0xFFFE then .ok (wordOfBytes (m.lookup a) (m.lookup (a + 1)))
      else .error (.boundsFault a 2) := by
  have h : (a + 1 < Config.memSize) = (a ≤ 0xFFFE) := by simp only [Config.memSize, eq_iff_iff]; omega
  simp only [readWord, h]

theorem advancePc_eq (k : Nat) (s : State) :
    advancePc k s = if s.pc.toNat + k ≤ 0xFFFF then .ok (movedOn k 0 s)
      else .error (.valueRangeFault .pc (s.pc.toNat + k)) := rfl

/-- PC after an advance that does not pass 0xFFFF. -/
theorem movedOn_pc_toNat {k c : Nat} {s : State} (h : s.pc.toNat + k ≤ 0xFFFF) :
    (movedOn k c s).pc.toNat = s.pc.toNat + k := by
  rw [movedOn_pc, BitVec.toNat_add, BitVec.toNat_ofNat]; omega

/-- Two moves on are one. -/
theorem movedOn_movedOn (k c k' c' : Nat) (s : State) :
    movedOn k' c' (movedOn k c s) = movedOn (k + k') (c + c') s := by
  simp only [movedOn, BitVec.ofNat_add, BitVec.add_assoc, Nat.add_assoc]

/-- `FetchByte` reads at any PC and faults only in its advance, at 0xFFFF. -/
theorem fetchByte_eq (s : State) :
    fetchByte s = if s.pc.toNat ≤ 0xFFFE then .ok (s.mem.lookup s.pc.toNat, movedOn 1 1 s)
      else .error (.valueRangeFault .pc 0x10000) := by
  have := s.pc.isLt
  have h : (s.pc.toNat + 1 ≤ 0xFFFF) = (s.pc.toNat ≤ 0xFFFE) := by simp only [eq_iff_iff]; omega
  simp only [fetchByte, readByte_eq, advancePc_eq, if_pos (show s.pc.toNat ≤ 0xFFFF by omega), h]
  by_cases hp : s.pc.toNat ≤ 0xFFFE
  · simp only [if_pos hp]; rfl
  · simp only [if_neg hp, show s.pc.toNat + 1 = 0x10000 by omega]

/-- `FetchWord` faults in its read at 0xFFFF and in its advance at 0xFFFE. -/
theorem fetchWord_eq (s : State) :
    fetchWord s =
      if s.pc.toNat ≤ 0xFFFD then
        .ok (wordOfBytes (s.mem.lookup s.pc.toNat) (s.mem.lookup (s.pc.toNat + 1)), movedOn 2 2 s)
      else if s.pc.toNat = 0xFFFE then .error (.valueRangeFault .pc 0x10000)
      else .error (.boundsFault 0xFFFF 2) := by
  have := s.pc.isLt
  simp only [fetchWord, readWord_eq, advancePc_eq]
  by_cases h₁ : s.pc.toNat ≤ 0xFFFD
  · simp only [if_pos h₁, if_pos (show s.pc.toNat ≤ 0xFFFE by omega),
      if_pos (show s.pc.toNat + 2 ≤ 0xFFFF by omega)]; rfl
  · by_cases h₂ : s.pc.toNat = 0xFFFE
    · simp [h₂]
    · have h₃ : s.pc.toNat = 0xFFFF := by omega
      simp [h₃]

/-- The one write of A, as its postcondition. -/
theorem withA_eq_loaded {v : Nat} (h : v ≤ 0xFFFF) (s : State) : s.withA (BitVec.ofNat 16 v) = loaded v s := by
  have hz : (BitVec.ofNat 16 v == 0#16) = decide (v = 0) := by
    rw [Bool.eq_iff_iff, beq_iff_eq, decide_eq_true_eq, ← BitVec.toNat_inj, BitVec.toNat_ofNat, BitVec.toNat_ofNat]
    omega
  have hn : (BitVec.ofNat 16 v).getLsbD 7 = decide (v / 0x80 % 2 = 1) := by
    rw [BitVec.getLsbD_ofNat, Nat.testBit_eq_decide_div_mod_eq]; simp
  simp only [State.withA, setFromValue, loaded, hz, hn]

theorem loadAccumulator_eq (v : Nat) (s : State) :
    loadAccumulator v s = if v ≤ 0xFFFF then .ok (loaded v s) else .error (.valueRangeFault .a v) := by
  simp only [loadAccumulator]
  split
  · next h => rw [withA_eq_loaded h]
  · rfl

/-- A load of a word never faults in the accumulator write. -/
theorem loadResolved_ok (v : Word) (s : State) : loadResolved (.ok (v, s)) = .next (loaded v.toNat s) := by
  have := v.isLt
  simp only [loadResolved, loadAccumulator_eq, if_pos (show v.toNat ≤ 0xFFFF by omega), propagate]

/-- The number a stored word stands for is a word. -/
theorem storedWord_le (m : Memory) (a : Nat) : storedWord m a ≤ 0xFFFF := by
  have := (m.lookup a).isLt; have := (m.lookup (a + 1)).isLt
  simp only [storedWord]; omega

/-- A load through a data word: the word, the resolve cycles, or the bus's fault. -/
theorem loadStored_eq (ea cost : Nat) (s : State) :
    loadResolved (resolveStored ea cost s) =
      if ea ≤ 0xFFFE then .next (loaded (storedWord s.mem ea) { s with cyc := s.cyc + cost })
      else .fault (.boundsFault ea 2) := by
  simp only [resolveStored, readWord_eq]
  by_cases h : ea ≤ 0xFFFE
  · simp only [if_pos h]; rw [loadResolved_ok, wordOfBytes_toNat]; rfl
  · simp only [if_neg h]; rfl

theorem indexedCost_eq (base index : Word) : indexedCost base index = 1 + penalty base.toNat index.toNat := by
  simp only [indexedCost, pageCross, penalty, decide_eq_true_eq]; rfl

end Sys2Proof.Machine
end

