-- ==== Sys2Proof/Laws/Exec.lean ====
section
/-! SUPPORT. One spec lemma per instruction, and what any handler can do. -/

namespace Sys2Proof.Machine

open Sys2Proof.Safety

theorem zext16_toNat (v : Byte) : (zext16 v).toNat = v.toNat := by
  have := v.isLt
  simp only [zext16, BitVec.toNat_setWidth]; omega

theorem exec_nop_eq (s : State) : exec .nop s = .next { s with cyc := s.cyc + 1 } := rfl

theorem exec_ldaImm_eq (v : Byte) (s : State) : exec (.ldaImm v) s = .next (loaded v.toNat s) := by
  have h : (zext16 v).toNat = v.toNat := zext16_toNat v
  show loadResolved (.ok (zext16 v, s)) = _
  rw [loadResolved_ok, h]

theorem exec_ldaAbs_eq (w : Word) (s : State) :
    exec (.ldaAbs w) s =
      if w.toNat ≤ 0xFFFE then .next (loaded (storedWord s.mem w.toNat) { s with cyc := s.cyc + 1 })
      else .fault (.boundsFault w.toNat 2) := loadStored_eq _ _ s

theorem exec_ldaAbsX_eq (w : Word) (s : State) :
    exec (.ldaAbsX w) s =
      if w.toNat + s.x.toNat ≤ 0xFFFE then
        .next (loaded (storedWord s.mem (w.toNat + s.x.toNat))
          { s with cyc := s.cyc + (1 + penalty w.toNat s.x.toNat) })
      else .fault (.boundsFault (w.toNat + s.x.toNat) 2) := by
  rw [← indexedCost_eq]; exact loadStored_eq _ _ s

theorem exec_ldaAbsY_eq (w : Word) (s : State) :
    exec (.ldaAbsY w) s =
      if w.toNat + s.y.toNat ≤ 0xFFFE then
        .next (loaded (storedWord s.mem (w.toNat + s.y.toNat))
          { s with cyc := s.cyc + (1 + penalty w.toNat s.y.toNat) })
      else .fault (.boundsFault (w.toNat + s.y.toNat) 2) := by
  rw [← indexedCost_eq]; exact loadStored_eq _ _ s

theorem exec_ldaZp_eq (v : Byte) (s : State) :
    exec (.ldaZp v) s = .next (loaded (storedWord s.mem v.toNat) { s with cyc := s.cyc + 1 }) := by
  have hv := v.isLt
  have h : (zext16 v).toNat = v.toNat := zext16_toNat v
  show loadResolved (resolveStored (zext16 v).toNat resolveCost s) = _
  rw [loadStored_eq, h, if_pos (by omega)]; rfl

/-- Cycles a handler adds to those of its fetches. -/
theorem instrLength_le_totalCycles (i : Instr) (s : State) : instrLength i ≤ totalCycles i s := by
  cases i <;> simp only [instrLength, totalCycles] <;> omega

theorem totalCycles_bounds (i : Instr) (s : State) : 2 ≤ totalCycles i s ∧ totalCycles i s ≤ 5 := by
  have h (a b : Nat) : penalty a b ≤ 1 := by simp only [penalty]; split <;> omega
  cases i <;> simp only [totalCycles] <;> first | omega | (constructor <;> first | omega | exact Nat.add_le_add_left (h _ _) 4)

/-- Everything a handler can do. It adds its cycles, writes nothing (NOP) or A with N and Z (a load), or takes the fault of
its data word. -/
theorem exec_cases (i : Instr) (s : State) :
    (exec i s = .next { s with cyc := s.cyc + (totalCycles i s - instrLength i) } ∧ i = .nop) ∨
    (∃ v, v ≤ 0xFFFF ∧ exec i s = .next (loaded v { s with cyc := s.cyc + (totalCycles i s - instrLength i) }) ∧
      i ≠ .nop ∧ DataInside i s) ∨
    (∃ ea, dataAddress i s = some ea ∧ 0xFFFE < ea ∧ exec i s = .fault (.boundsFault ea 2)) := by
  cases i with
  | nop => exact .inl ⟨rfl, rfl⟩
  | ldaImm v =>
    have := v.isLt
    exact .inr (.inl ⟨v.toNat, by omega, exec_ldaImm_eq v s, by simp, fun _ h => by cases h⟩)
  | ldaAbs w =>
    by_cases h : w.toNat ≤ 0xFFFE
    · exact .inr (.inl ⟨_, storedWord_le _ _, by rw [exec_ldaAbs_eq, if_pos h]; rfl, by simp,
        fun _ e => by cases e; exact h⟩)
    · exact .inr (.inr ⟨_, rfl, by omega, by rw [exec_ldaAbs_eq, if_neg h]⟩)
  | ldaAbsX w =>
    by_cases h : w.toNat + s.x.toNat ≤ 0xFFFE
    · refine .inr (.inl ⟨_, storedWord_le s.mem (w.toNat + s.x.toNat), ?_, by simp, fun _ e => by cases e; exact h⟩)
      rw [exec_ldaAbsX_eq, if_pos h]
      simp only [totalCycles, instrLength, show ∀ n, 4 + n - 3 = 1 + n by omega]
    · exact .inr (.inr ⟨_, rfl, by omega, by rw [exec_ldaAbsX_eq, if_neg h]⟩)
  | ldaAbsY w =>
    by_cases h : w.toNat + s.y.toNat ≤ 0xFFFE
    · refine .inr (.inl ⟨_, storedWord_le s.mem (w.toNat + s.y.toNat), ?_, by simp, fun _ e => by cases e; exact h⟩)
      rw [exec_ldaAbsY_eq, if_pos h]
      simp only [totalCycles, instrLength, show ∀ n, 4 + n - 3 = 1 + n by omega]
    · exact .inr (.inr ⟨_, rfl, by omega, by rw [exec_ldaAbsY_eq, if_neg h]⟩)
  | ldaZp v =>
    have := v.isLt
    exact .inr (.inl ⟨_, storedWord_le _ _, exec_ldaZp_eq v s, by simp, fun _ e => by cases e; omega⟩)

end Sys2Proof.Machine
end

