-- ==== Sys2Proof/Laws/PerInstr.lean ====
section
/-! SUPPORT. Statements about every instruction as syntax, one lemma per constructor. -/

namespace Sys2Proof.Laws

/-- Decoding the encoding of `i` gives `i` back and leaves the bytes after it. -/
def RoundTrip.Statement (i : Instr) : Prop := ∀ rest, decode (encode i ++ rest) = .ok (i, rest)

theorem RoundTrip.nop : RoundTrip.Statement .nop := fun _ => rfl
theorem RoundTrip.ldaImm (v : Byte) : RoundTrip.Statement (.ldaImm v) := fun _ => rfl
theorem RoundTrip.ldaAbs (w : Word) : RoundTrip.Statement (.ldaAbs w) := fun _ => by
  simp [encode, decode, decodeOperand]
theorem RoundTrip.ldaAbsX (w : Word) : RoundTrip.Statement (.ldaAbsX w) := fun _ => by
  simp [encode, decode, decodeOperand]
theorem RoundTrip.ldaAbsY (w : Word) : RoundTrip.Statement (.ldaAbsY w) := fun _ => by
  simp [encode, decode, decodeOperand]
theorem RoundTrip.ldaZp (v : Byte) : RoundTrip.Statement (.ldaZp v) := fun _ => rfl

/-- The encoding has the table's length, and the instruction is well formed. -/
def EncodedLength.Statement (i : Instr) : Prop := (encode i).length = instrLength i ∧ i.wellFormed = true

theorem EncodedLength.nop : EncodedLength.Statement .nop := ⟨rfl, rfl⟩
theorem EncodedLength.ldaImm (v : Byte) : EncodedLength.Statement (.ldaImm v) := ⟨rfl, rfl⟩
theorem EncodedLength.ldaAbs (w : Word) : EncodedLength.Statement (.ldaAbs w) := ⟨rfl, rfl⟩
theorem EncodedLength.ldaAbsX (w : Word) : EncodedLength.Statement (.ldaAbsX w) := ⟨rfl, rfl⟩
theorem EncodedLength.ldaAbsY (w : Word) : EncodedLength.Statement (.ldaAbsY w) := ⟨rfl, rfl⟩
theorem EncodedLength.ldaZp (v : Byte) : EncodedLength.Statement (.ldaZp v) := ⟨rfl, rfl⟩

end Sys2Proof.Laws

namespace Sys2Proof

/-- The per-instruction round trips, as one rewriting rule. -/
theorem decode_encode (i : Instr) (rest : List Byte) : decode (encode i ++ rest) = .ok (i, rest) := by
  cases i with
  | nop => exact Laws.RoundTrip.nop rest
  | ldaImm v => exact Laws.RoundTrip.ldaImm v rest
  | ldaAbs w => exact Laws.RoundTrip.ldaAbs w rest
  | ldaAbsX w => exact Laws.RoundTrip.ldaAbsX w rest
  | ldaAbsY w => exact Laws.RoundTrip.ldaAbsY w rest
  | ldaZp v => exact Laws.RoundTrip.ldaZp v rest

end Sys2Proof
end

