-- ==== Sys2Proof/Laws/Iteration.lean ====
section
/-! SUPPORT. What an iteration can do, said once. -/

namespace Sys2Proof.Machine

open Sys2Proof.Safety

/-- The two bytes of an operand word are those of the encoding. -/
theorem wordOfBytes_of_bytes {w : Word} {b₁ b₂ : Byte} (h₁ : b₁ = loByte w) (h₂ : b₂ = hiByte w) :
    wordOfBytes b₁ b₂ = w := by rw [h₁, h₂, wordOfBytes_lo_hi]

/-- The fetches of an iteration whose opcode byte has a `B8` row. -/
theorem iteration_b8 {s : State} {form : Byte → Instr} (hl : lookupOpcode (s.mem.lookup s.pc.toNat) = some (.b8 form))
    (hp : s.pc.toNat + 2 ≤ 0xFFFF) :
    iteration s = handlerEnd (exec (form (s.mem.lookup (s.pc.toNat + 1))) (movedOn 2 2 s)) := by
  simp only [iteration, fetchByte_eq, if_pos (show s.pc.toNat ≤ 0xFFFE by omega), hl, fetchOperand]
  have h₁ : (movedOn 1 1 s).pc.toNat = s.pc.toNat + 1 := movedOn_pc_toNat (by omega)
  simp only [h₁, if_pos (show s.pc.toNat + 1 ≤ 0xFFFE by omega), movedOn_movedOn, movedOn_mem]

/-- The fetches of an iteration whose opcode byte has a `W16` row. -/
theorem iteration_w16 {s : State} {form : Word → Instr} (hl : lookupOpcode (s.mem.lookup s.pc.toNat) = some (.w16 form))
    (hp : s.pc.toNat + 3 ≤ 0xFFFF) :
    iteration s = handlerEnd (exec
      (form (wordOfBytes (s.mem.lookup (s.pc.toNat + 1)) (s.mem.lookup (s.pc.toNat + 2)))) (movedOn 3 3 s)) := by
  simp only [iteration, fetchByte_eq, if_pos (show s.pc.toNat ≤ 0xFFFE by omega), hl, fetchOperand, fetchWord_eq]
  have h₁ : (movedOn 1 1 s).pc.toNat = s.pc.toNat + 1 := movedOn_pc_toNat (by omega)
  simp only [h₁, if_pos (show s.pc.toNat + 1 ≤ 0xFFFD by omega), movedOn_movedOn, movedOn_mem]

/-- The fetches of an iteration whose opcode byte has the `IMP` row. -/
theorem iteration_imp {s : State} {i : Instr} (hl : lookupOpcode (s.mem.lookup s.pc.toNat) = some (.imp i))
    (hp : s.pc.toNat ≤ 0xFFFE) : iteration s = handlerEnd (exec i (movedOn 1 1 s)) := by
  simp only [iteration, fetchByte_eq, if_pos hp, hl, fetchOperand]

/-- No opcode is looked up at 0xFFFF. -/
theorem iteration_at_top {s : State} (h : s.pc.toNat = 0xFFFF) :
    iteration s = .faulted (.valueRangeFault .pc 0x10000) := by
  simp only [iteration, fetchByte_eq, if_neg (show ¬s.pc.toNat ≤ 0xFFFE by omega)]

/-- An unrecognized opcode below the top. -/
theorem iteration_unrecognized {s : State} (hp : s.pc.toNat ≤ 0xFFFE)
    (hl : lookupOpcode (s.mem.lookup s.pc.toNat) = none) :
    iteration s = .unrecognized (s.mem.lookup s.pc.toNat) s.pc (movedOn 1 0 s) := by
  simp only [iteration, fetchByte_eq, if_pos hp, hl]
  rfl

/-- An operand byte at 0xFFFF. -/
theorem iteration_b8_at_top {s : State} {form : Byte → Instr}
    (hl : lookupOpcode (s.mem.lookup s.pc.toNat) = some (.b8 form)) (hp : s.pc.toNat = 0xFFFE) :
    iteration s = .faulted (.valueRangeFault .pc 0x10000) := by
  simp only [iteration, fetchByte_eq, if_pos (show s.pc.toNat ≤ 0xFFFE by omega), hl, fetchOperand]
  have h₁ : (movedOn 1 1 s).pc.toNat = s.pc.toNat + 1 := movedOn_pc_toNat (by omega)
  simp only [h₁, if_neg (show ¬s.pc.toNat + 1 ≤ 0xFFFE by omega)]

/-- An operand word at 0xFFFE or 0xFFFF. -/
theorem iteration_w16_at_top {s : State} {form : Word → Instr}
    (hl : lookupOpcode (s.mem.lookup s.pc.toNat) = some (.w16 form)) (hp : s.pc.toNat ≤ 0xFFFE)
    (hq : 0xFFFD ≤ s.pc.toNat) :
    iteration s = .faulted (if s.pc.toNat = 0xFFFD then .valueRangeFault .pc 0x10000 else .boundsFault 0xFFFF 2) := by
  simp only [iteration, fetchByte_eq, if_pos hp, hl, fetchOperand, fetchWord_eq]
  have h₁ : (movedOn 1 1 s).pc.toNat = s.pc.toNat + 1 := movedOn_pc_toNat (by omega)
  simp only [h₁, if_neg (show ¬s.pc.toNat + 1 ≤ 0xFFFD by omega)]
  by_cases h : s.pc.toNat = 0xFFFD
  · simp only [h, if_true]
  · simp only [if_neg h, if_neg (show ¬s.pc.toNat + 1 = 0xFFFE by omega)]

/-- The iteration runs the instruction at PC. -/
def RunsInstructionAtPc (s : State) : Prop :=
  ∃ i, StandsAtPc i s ∧ FetchInside i s ∧
    iteration s = handlerEnd (exec i (movedOn (instrLength i) (instrLength i) s))

theorem runs_b8 {s : State} {form : Byte → Instr} {op : Byte} (hrow : ∀ v, encode (form v) = [op, v] ∧ instrLength (form v) = 2)
    (ho : s.mem.lookup s.pc.toNat = op) (hl : lookupOpcode (s.mem.lookup s.pc.toNat) = some (.b8 form))
    (hp : s.pc.toNat + 2 ≤ 0xFFFF) : RunsInstructionAtPc s := by
  obtain ⟨he, hn⟩ := hrow (s.mem.lookup (s.pc.toNat + 1))
  refine ⟨form (s.mem.lookup (s.pc.toNat + 1)), ?_, ?_, ?_⟩
  · rw [StandsAtPc, hn, he, ← ho]; rfl
  · rw [FetchInside, hn]; exact hp
  · rw [hn]; exact iteration_b8 hl hp

theorem runs_w16 {s : State} {form : Word → Instr} {op : Byte}
    (hrow : ∀ w, encode (form w) = [op, loByte w, hiByte w] ∧ instrLength (form w) = 3)
    (ho : s.mem.lookup s.pc.toNat = op) (hl : lookupOpcode (s.mem.lookup s.pc.toNat) = some (.w16 form))
    (hp : s.pc.toNat + 3 ≤ 0xFFFF) : RunsInstructionAtPc s := by
  obtain ⟨he, hn⟩ := hrow (wordOfBytes (s.mem.lookup (s.pc.toNat + 1)) (s.mem.lookup (s.pc.toNat + 2)))
  refine ⟨form (wordOfBytes (s.mem.lookup (s.pc.toNat + 1)) (s.mem.lookup (s.pc.toNat + 2))), ?_, ?_, ?_⟩
  · rw [StandsAtPc, hn, he, loByte_wordOfBytes, hiByte_wordOfBytes, ← ho]; rfl
  · rw [FetchInside, hn]; exact hp
  · rw [hn]; exact iteration_w16 hl hp

/-- The opcode byte at PC has the row, and so the length, of the instruction that stands there. -/
theorem standsAtPc_row {i : Instr} {s : State} (h : StandsAtPc i s) :
    (∃ j, lookupOpcode (s.mem.lookup s.pc.toNat) = some (.imp j) ∧ instrLength i = 1) ∨
    (∃ form, lookupOpcode (s.mem.lookup s.pc.toNat) = some (.b8 form) ∧ instrLength i = 2) ∨
    (∃ form, lookupOpcode (s.mem.lookup s.pc.toNat) = some (.w16 form) ∧ instrLength i = 3) := by
  cases i <;> rw [(List.cons.inj h).1]
  case nop => exact .inl ⟨_, rfl, rfl⟩
  case ldaImm => exact .inr (.inl ⟨_, rfl, rfl⟩)
  case ldaZp => exact .inr (.inl ⟨_, rfl, rfl⟩)
  all_goals exact .inr (.inr ⟨_, rfl, rfl⟩)

/-- Everything an iteration can do: take a fetch fault near the top, which PC and the opcode byte decide, halt on an unrecognized opcode, or run the instruction
that stands at PC. -/
theorem iteration_cases (s : State) :
    (∃ f, iteration s = .faulted f ∧ (f = .valueRangeFault .pc 0x10000 ∨ f = .boundsFault 0xFFFF 2) ∧
      0xFFFD ≤ s.pc.toNat ∧ (∀ i, StandsAtPc i s → ¬FetchInside i s) ∧
      ∀ s' : State, s'.pc = s.pc → s'.mem.lookup s.pc.toNat = s.mem.lookup s.pc.toNat → iteration s' = .faulted f) ∨
    (s.pc.toNat ≤ 0xFFFE ∧ ¬Recognized (s.mem.lookup s.pc.toNat) ∧
      iteration s = .unrecognized (s.mem.lookup s.pc.toNat) s.pc (movedOn 1 0 s)) ∨
    RunsInstructionAtPc s := by
  have hpc := s.pc.isLt
  by_cases hp : s.pc.toNat ≤ 0xFFFE
  case neg =>
    refine .inl ⟨_, iteration_at_top (by omega), .inl rfl, by omega, fun i h hf => ?_,
      fun s' hs _ => iteration_at_top (by rw [hs]; omega)⟩
    obtain ⟨_, -, hn⟩ | ⟨_, -, hn⟩ | ⟨_, -, hn⟩ := standsAtPc_row h <;>
      (rw [FetchInside, hn] at hf; omega)
  obtain ⟨ho, hl⟩ | ⟨ho, hl⟩ | ⟨ho, hl⟩ | ⟨ho, hl⟩ | ⟨ho, hl⟩ | ⟨ho, hl⟩ | ⟨ho, hl⟩ :=
    lookupOpcode_cases (s.mem.lookup s.pc.toNat)
  case inl =>
    exact .inr (.inr ⟨.nop, by simp [StandsAtPc, instrLength, Memory.bytesAt, encode, ho],
      by simp only [FetchInside, instrLength]; omega, iteration_imp hl hp⟩)
  case inr.inr.inr.inr.inr.inr => exact .inr (.inl ⟨hp, ho, iteration_unrecognized hp hl⟩)
  case inr.inl | inr.inr.inr.inr.inr.inl =>
    by_cases hq : s.pc.toNat + 2 ≤ 0xFFFF
    · exact .inr (.inr (runs_b8 (fun _ => ⟨rfl, rfl⟩) ho hl hq))
    · refine .inl ⟨_, iteration_b8_at_top hl (by omega), .inl rfl, by omega, fun i h hf => ?_,
        fun s' hs hm => iteration_b8_at_top (by rw [hs, hm]; exact hl) (by rw [hs]; omega)⟩
      obtain ⟨_, hr, hn⟩ | ⟨_, hr, hn⟩ | ⟨_, hr, hn⟩ := standsAtPc_row h <;>
        first | (rw [hl] at hr; cases hr; done) | (rw [FetchInside, hn] at hf; omega)
  all_goals
    by_cases hq : s.pc.toNat + 3 ≤ 0xFFFF
    · exact .inr (.inr (runs_w16 (fun _ => ⟨rfl, rfl⟩) ho hl hq))
    · refine .inl ⟨_, iteration_w16_at_top hl hp (by omega), ?_, by omega, fun i h hf => ?_, fun s' hs hm => by
        rw [iteration_w16_at_top (s := s') (by rw [hs, hm]; exact hl) (by rw [hs]; omega) (by rw [hs]; omega), hs]⟩
      · split <;> simp
      · obtain ⟨_, hr, hn⟩ | ⟨_, hr, hn⟩ | ⟨_, hr, hn⟩ := standsAtPc_row h <;>
          first | (rw [hl] at hr; cases hr; done) | (rw [FetchInside, hn] at hf; omega)

/-- Two instructions that stand at one PC are one: the longer encoding begins with the shorter, and decoding gives both. -/
theorem standsAtPc_unique {i j : Instr} {s : State} (hi : StandsAtPc i s) (hj : StandsAtPc j s) : i = j := by
  have key {i j : Instr} (hi : StandsAtPc i s) (hj : StandsAtPc j s) (hle : instrLength i ≤ instrLength j) : i = j := by
    obtain ⟨k, hk⟩ := Nat.exists_eq_add_of_le hle
    have he : encode j = encode i ++ s.mem.bytesAt (s.pc.toNat + instrLength i) k := by
      rw [← hi, ← hj, hk, Memory.bytesAt_add]
    have h₁ := decode_encode j []
    rw [List.append_nil, he, decode_encode] at h₁
    exact congrArg Prod.fst (Except.ok.inj h₁)
  rcases Nat.le_total (instrLength i) (instrLength j) with h | h
  · exact key hi hj h
  · exact (key hj hi h).symm

/-- An instruction that stands at PC below 0xFFFF is the one the iteration runs. -/
theorem iteration_of_standsAtPc {i : Instr} {s : State} (h : StandsAtPc i s) (hf : FetchInside i s) :
    iteration s = handlerEnd (exec i (movedOn (instrLength i) (instrLength i) s)) := by
  obtain ⟨f, -, -, -, hn, -⟩ | ⟨-, hn, -⟩ | ⟨j, hj, -, he⟩ := iteration_cases s
  · exact absurd hf (hn i h)
  · obtain ⟨_, hr, -⟩ | ⟨_, hr, -⟩ | ⟨_, hr, -⟩ := standsAtPc_row h <;>
      (rw [lookupOpcode_none hn] at hr; cases hr)
  · rw [standsAtPc_unique h hj]; exact he

/-- What an iteration that continues has done: the instruction at PC, its PC and CYC, and A with N and Z if it is a load. -/
theorem continues_cases {s t : State} (h : iteration s = .continues t) :
    ∃ i, StandsAtPc i s ∧ FetchInside i s ∧ DataInside i s ∧
      ((i = .nop ∧ t = movedOn 1 2 s) ∨
       (i ≠ .nop ∧ ∃ v, v ≤ 0xFFFF ∧ t = loaded v (movedOn (instrLength i) (totalCycles i s) s))) := by
  obtain ⟨f, hf, -⟩ | ⟨-, -, hu⟩ | ⟨i, hi, hin, he⟩ := iteration_cases s
  · rw [hf] at h; cases h
  · rw [hu] at h; cases h
  · refine ⟨i, hi, hin, ?_⟩
    have hc : totalCycles i (movedOn (instrLength i) (instrLength i) s) = totalCycles i s := by cases i <;> rfl
    have hd : dataAddress i (movedOn (instrLength i) (instrLength i) s) = dataAddress i s := by cases i <;> rfl
    have hle := instrLength_le_totalCycles i s
    rw [he] at h
    obtain ⟨hx, rfl⟩ | ⟨v, hv, hx, hne, hdi⟩ | ⟨ea, -, -, hx⟩ :=
      exec_cases i (movedOn (instrLength i) (instrLength i) s)
    · rw [hx] at h
      cases h
      exact ⟨fun _ e => (by cases e), .inl ⟨rfl, rfl⟩⟩
    · rw [hx] at h
      cases h
      refine ⟨fun ea e => hdi ea (hd ▸ e), .inr ⟨hne, v, hv, ?_⟩⟩
      rw [hc]
      simp only [movedOn, Nat.add_assoc, Nat.add_sub_cancel' hle]
    · rw [hx] at h; cases h

/-- What a step that answers a next state has done: an iteration that continued, or a halt on an unrecognized opcode. -/
theorem step_next_cases {s t : State} (h : step s = .next t) :
    iteration s = .continues t ∨
    (s.pc.toNat ≤ 0xFFFE ∧ ¬Recognized (s.mem.lookup s.pc.toNat) ∧ t = movedOn 1 0 s) := by
  simp only [step] at h
  obtain ⟨f, hf, -⟩ | ⟨hp, hr, hu⟩ | ⟨i, -, -, he⟩ := iteration_cases s
  · rw [hf] at h; cases h
  · rw [hu] at h; cases h; exact .inr ⟨hp, hr, rfl⟩
  · left
    rw [he] at h ⊢
    cases hx : exec i (movedOn (instrLength i) (instrLength i) s) <;> rw [hx] at h <;> cases h
    rfl

/-- No iteration is refused. -/
theorem iteration_not_refused (s : State) (r : Refusal) : iteration s ≠ .refused r := by
  intro h
  obtain ⟨f, hf, -⟩ | ⟨-, -, hu⟩ | ⟨i, -, -, he⟩ := iteration_cases s
  · rw [hf] at h; cases h
  · rw [hu] at h; cases h
  · rw [he] at h
    obtain ⟨hx, -⟩ | ⟨v, -, hx, -⟩ | ⟨ea, -, -, hx⟩ := exec_cases i (movedOn (instrLength i) (instrLength i) s) <;>
      rw [hx] at h <;> cases h

/-- An iteration that continues adds 2 to 5 to CYC. -/
theorem continues_cyc {s t : State} (h : iteration s = .continues t) : s.cyc + 2 ≤ t.cyc ∧ t.cyc ≤ s.cyc + 5 := by
  obtain ⟨i, -, -, -, ⟨-, rfl⟩ | ⟨-, v, -, rfl⟩⟩ := continues_cases h
  · simp
  · have := totalCycles_bounds i s
    simp only [loaded_cyc, movedOn_cyc]; omega

end Sys2Proof.Machine
end

