-- ==== Sys2Proof/Laws/Execute.lean ====
section
/-! SUPPORT. The execute call: the fuel is no limit, and the induction over a call, said once. -/

namespace Sys2Proof.Machine

/-- Any fuel that covers the budget gives one result. -/
theorem executeLoop_fuel {fuel fuel' maxCycles : Nat} {s : State} (h : maxCycles - s.cyc ≤ fuel)
    (h' : maxCycles - s.cyc ≤ fuel') : executeLoop fuel maxCycles s = executeLoop fuel' maxCycles s := by
  induction fuel generalizing fuel' s with
  | zero =>
    cases fuel' with
    | zero => rfl
    | succ fuel' => simp only [executeLoop, if_neg (show ¬s.cyc < maxCycles by omega)]
  | succ fuel ih =>
    cases fuel' with
    | zero => simp only [executeLoop, if_neg (show ¬s.cyc < maxCycles by omega)]
    | succ fuel' =>
      simp only [executeLoop]
      split
      · cases hi : iteration s with
        | continues t => have := continues_cyc hi; exact ih (by omega) (by omega)
        | _ => rfl
      · rfl

/-- What one iteration of the loop can have led to, for a loop that returned: the induction every claim about a call uses.
`P` holds of the state a call starts from and every iteration that continues or halts keeps it, so the call leaves it. -/
theorem executeLoop_keeps {P : State → Prop} (hc : ∀ s t, P s → iteration s = .continues t → P t)
    (hu : ∀ s op addr t, P s → iteration s = .unrecognized op addr t → P t) {fuel maxCycles c : Nat} {r : StopReason}
    {s t : State} (hs : P s) (h : executeLoop fuel maxCycles s = .ok c r t) : P t := by
  induction fuel generalizing s with
  | zero => cases h; exact hs
  | succ fuel ih =>
    simp only [executeLoop] at h
    split at h
    · cases hi : iteration s with
      | continues u => rw [hi] at h; exact ih (hc s u hs hi) h
      | unrecognized op addr u => rw [hi] at h; cases h; exact hu s op addr _ hs hi
      | faulted f => rw [hi] at h; cases h
      | refused r => rw [hi] at h; cases h
    · cases h; exact hs

/-- The same of a whole call, with the step in place of the iteration. -/
theorem execute_keeps {P : State → Prop} (hstep : ∀ s t, P s → step s = .next t → P t) {maxCycles c : Nat}
    {r : StopReason} {s t : State} (hs : P s) (h : execute maxCycles s = .ok c r t) : P t :=
  executeLoop_keeps (fun s t hp hi => hstep s t hp (by simp only [step, hi, IterationEnd.outcome]))
    (fun s op addr t hp hi => hstep s t hp (by simp only [step, hi, IterationEnd.outcome])) hs h

/-- The count a call returns is the counter it leaves. -/
theorem execute_count {maxCycles c : Nat} {r : StopReason} {s t : State} (h : execute maxCycles s = .ok c r t) :
    c = t.cyc := by
  suffices ∀ fuel s, executeLoop fuel maxCycles s = .ok c r t → c = t.cyc from this _ _ h
  intro fuel
  induction fuel with
  | zero => intro s h; cases h; rfl
  | succ fuel ih =>
    intro s h
    simp only [executeLoop] at h
    split at h
    · cases hi : iteration s with
      | continues u => rw [hi] at h; exact ih u h
      | unrecognized op addr u => rw [hi] at h; cases h; rfl
      | faulted f => rw [hi] at h; cases h
      | refused r => rw [hi] at h; cases h
    · cases h; rfl

end Sys2Proof.Machine
end

