-- ==== Sys2Proof/Laws/Host.lean ====
section
/-! SUPPORT. What a host operation that returns can do, said once. -/

namespace Sys2Proof.Machine

open Sys2Proof.Safety

/-- The operations that only observe. -/
def observes : HostOp → Bool
  | .getA | .getX | .getY | .getPc | .getFlag _ | .compose | .readByte _ | .readWord _ => true
  | .reset | .execute _ | .setA _ | .setX _ | .setY _ | .setFlag _ _ | .writeByte _ _ | .writeWord _ _ => false

/-- A host operation that returns leaves the state as it was, or has done the one thing it is named for. -/
theorem hostStep_ok_cases {op : HostOp} {reply : Reply} {s t : State} (h : hostStep op s = .ok reply t) :
    (t = s ∧ observes op = true) ∨
    (op = .reset ∧ t = { s with pc := s.resetVector }) ∨
    (∃ m c r, op = .execute m ∧ execute m.toNat s = .ok c r t) ∨
    (∃ v, op = .setA v ∧ 0 ≤ v ∧ v ≤ 0xFFFF ∧ t = loaded v.toNat s) ∨
    (∃ v, op = .setX v ∧ 0 ≤ v ∧ v ≤ 0xFFFF ∧ t = { s with x := BitVec.ofNat 16 v.toNat }) ∨
    (∃ v, op = .setY v ∧ 0 ≤ v ∧ v ≤ 0xFFFF ∧ t = { s with y := BitVec.ofNat 16 v.toNat }) ∨
    (∃ f b, op = .setFlag f b ∧ t = { s with flags := s.flags.put b f }) ∨
    (∃ a v m, op = .writeByte a v ∧ writeByte s.mem a.toNat v.toNat = .ok m ∧ t = { s with mem := m }) ∨
    (∃ a v m, op = .writeWord a v ∧ writeWord s.mem a.toNat v.toNat = .ok m ∧ t = { s with mem := m }) := by
  simp only [hostStep] at h
  cases hr : refusedArgument op with
  | some v => rw [hr] at h; cases h
  | none =>
    rw [hr] at h
    cases op with
    | reset => cases h; exact .inr (.inl ⟨rfl, rfl⟩)
    | getA => cases h; exact .inl ⟨rfl, rfl⟩
    | getX => cases h; exact .inl ⟨rfl, rfl⟩
    | getY => cases h; exact .inl ⟨rfl, rfl⟩
    | getPc => cases h; exact .inl ⟨rfl, rfl⟩
    | getFlag f => cases h; exact .inl ⟨rfl, rfl⟩
    | compose => cases h; exact .inl ⟨rfl, rfl⟩
    | setFlag f b => cases h; exact .inr (.inr (.inr (.inr (.inr (.inr (.inl ⟨f, b, rfl, rfl⟩))))))
    | readByte a =>
      simp only [performOp] at h
      split at h <;> cases h
      exact .inl ⟨rfl, rfl⟩
    | readWord a =>
      simp only [performOp] at h
      split at h <;> cases h
      exact .inl ⟨rfl, rfl⟩
    | execute m =>
      simp only [performOp] at h
      cases he : execute m.toNat s with
      | ok c r u => rw [he] at h; cases h; exact .inr (.inr (.inl ⟨m, c, r, rfl, he⟩))
      | fault f => rw [he] at h; cases h
      | refused r => rw [he] at h; cases h
    | setA v =>
      have hv : 0 ≤ v := by simpa [refusedArgument, naturalArgument] using hr
      simp only [performOp, loadAccumulator_eq] at h
      split at h <;> cases h
      exact .inr (.inr (.inr (.inl ⟨v, rfl, hv, by omega, rfl⟩)))
    | setX v =>
      have hv : 0 ≤ v := by simpa [refusedArgument, naturalArgument] using hr
      simp only [performOp, setX] at h
      split at h <;> cases h
      exact .inr (.inr (.inr (.inr (.inl ⟨v, rfl, hv, by omega, rfl⟩))))
    | setY v =>
      have hv : 0 ≤ v := by simpa [refusedArgument, naturalArgument] using hr
      simp only [performOp, setY] at h
      split at h <;> cases h
      exact .inr (.inr (.inr (.inr (.inr (.inl ⟨v, rfl, hv, by omega, rfl⟩)))))
    | writeByte a v =>
      simp only [performOp] at h
      cases hw : writeByte s.mem a.toNat v.toNat with
      | ok m => rw [hw] at h; cases h; exact .inr (.inr (.inr (.inr (.inr (.inr (.inr (.inl ⟨a, v, m, rfl, hw, rfl⟩)))))))
      | error f => rw [hw] at h; cases h
    | writeWord a v =>
      simp only [performOp] at h
      cases hw : writeWord s.mem a.toNat v.toNat with
      | ok m => rw [hw] at h; cases h; exact .inr (.inr (.inr (.inr (.inr (.inr (.inr (.inr ⟨a, v, m, rfl, hw, rfl⟩)))))))
      | error f => rw [hw] at h; cases h

/-- An operation that ends in an argument fault has changed nothing. -/
theorem hostStep_argumentFault {op : HostOp} {f : Fault} {s t : State} (h : hostStep op s = .argumentFault f t) : t = s := by
  have hs : ∀ {r : Except Fault State}, setterEnd s r = .argumentFault f t → t = s := fun {r} h => by
    cases r <;> cases h; rfl
  have hb : ∀ {r : Except Fault Memory}, busWriteEnd s r = .argumentFault f t → t = s := fun {r} h => by
    cases r <;> cases h; rfl
  simp only [hostStep] at h
  split at h
  · cases h
  · cases op with
    | setA v => exact hs h
    | setX v => exact hs h
    | setY v => exact hs h
    | writeByte a v => exact hb h
    | writeWord a v => exact hb h
    | execute m => simp only [performOp] at h; cases he : execute m.toNat s <;> rw [he] at h <;> cases h
    | readByte a => simp only [performOp] at h; split at h <;> cases h
    | readWord a => simp only [performOp] at h; split at h <;> cases h
    | _ => cases h

end Sys2Proof.Machine
end

