-- ==== Sys2Proof/Machine/Assembly.lean ====
section
/-! DEFINITION. The assembler spelling of an instruction (R67). It is notation only: the bytes are normative (D19). -/

namespace Sys2Proof

/-- The capital hexadecimal digit of a number below 16. -/
def hexDigit (n : Nat) : Char :=
  ['0', '1', '2', '3', '4', '5', '6', '7', '8', '9', 'A', 'B', 'C', 'D', 'E', 'F'].getD n '0'

/-- `$nn`. -/
def hexByte (v : Byte) : List Char := ['$', hexDigit (v.toNat / 16), hexDigit (v.toNat % 16)]

/-- `$nnnn`. -/
def hexWord (w : Word) : List Char :=
  ['$', hexDigit (w.toNat / 4096), hexDigit (w.toNat / 256 % 16), hexDigit (w.toNat / 16 % 16), hexDigit (w.toNat % 16)]

/-- The characters of R67's syntax column. -/
def assembly : Instr → List Char
  | .nop => ['N', 'O', 'P']
  | .ldaImm v => ['L', 'D', 'A', ' ', '#'] ++ hexByte v
  | .ldaAbs w => ['L', 'D', 'A', ' '] ++ hexWord w
  | .ldaAbsX w => ['L', 'D', 'A', ' '] ++ hexWord w ++ [',', 'X']
  | .ldaAbsY w => ['L', 'D', 'A', ' '] ++ hexWord w ++ [',', 'Y']
  | .ldaZp v => ['L', 'D', 'A', ' '] ++ hexByte v

end Sys2Proof
end

