-- ==== Sys2Proof/Tests/Slice0.lean ====
section
/-! SUPPORT. Tests on fixed values, each with the example or vector of 95_test_vectors.md it is taken from, or the rule it was
worked out from by hand, and a witness that meets the hypotheses of every obligation that has some. -/

namespace Sys2Proof.Tests

open Sys2Proof.Machine Sys2Proof.Safety

/-! ### Helpers -/

/-- The next state of an outcome, if it is one. -/
def nextOf : Host.Outcome State Fault Refusal → Option State
  | .next s => some s
  | .fault _ => none
  | .refused _ => none

/-- The fault of an outcome, if it is one. -/
def faultOf : Host.Outcome State Fault Refusal → Option Fault
  | .next _ => none
  | .fault f => some f
  | .refused _ => none

/-- A fresh core with vector `v`, after `reset()`, with `program` loaded at the vector (the start of most vectors). -/
def loadedCore (v : Word) (program : List Byte) : State :=
  { State.construct (Memory.storeBytes [] v.toNat program) v with pc := v }

/-- `s` with more bytes loaded. -/
def withBytes (a : Nat) (bytes : List Byte) (s : State) : State := s.withMem (s.mem.storeBytes a bytes)

/-- PC, A, N, Z and CYC after a step, the columns of the vectors' tables. -/
def columns (o : Host.Outcome State Fault Refusal) : Option (Word × Word × Bool × Bool × Nat) :=
  (nextOf o).map fun t => (t.pc, t.a, t.flags.negative, t.flags.zero, t.cyc)

/-! ### Well-formedness -/

/-- A negative natural is refused (U13, U15). -/
theorem test_negative_argument_ill_formed : naturalArgument (-1) = false := by decide
/-- Any natural is accepted (R120). -/
theorem test_wide_argument_well_formed : naturalArgument 0x10000 = true := by decide
/-- A vector above 16 bits is refused (U14). -/
theorem test_wide_vector_ill_formed : vectorArgument 0x10000 = false := by decide
/-- A negative vector is refused (U14). -/
theorem test_negative_vector_ill_formed : vectorArgument (-1) = false := by decide
theorem test_top_vector_well_formed : vectorArgument 0xFFFF = true := by decide
/-- No operand value is reserved (R64). -/
theorem test_every_instruction_well_formed (i : Instr) : i.wellFormed = true := by cases i <;> rfl
/-- An entry equal to the unlisted byte is not canonical (log entry 2). -/
theorem test_memory_with_unlisted_byte_ill_formed : Memory.wf [(5, 0#8)] = false := by decide
theorem test_memory_out_of_order_ill_formed : Memory.wf [(6, 1#8), (5, 1#8)] = false := by decide
theorem test_memory_repeated_address_ill_formed : Memory.wf [(5, 1#8), (5, 2#8)] = false := by decide
theorem test_memory_outside_space_ill_formed : Memory.wf [(0x10000, 1#8)] = false := by decide
theorem test_memory_top_well_formed : Memory.wf [(0, 1#8), (0xFFFF, 1#8)] = true := by decide

/-! ### Decoding: words written out from the encodings of 30_encoding.md, bit by bit -/

/-- 0xEA (R59). -/
theorem test_decode_nop : decode [0b11101010#8, 0x34#8] = .ok (.nop, [0x34#8]) := rfl
/-- `A9 42` (E6). -/
theorem test_decode_lda_imm : decode [0b10101001#8, 0b01000010#8] = .ok (.ldaImm 0x42#8, []) := rfl
/-- `AD 34 12`: the low byte first (R61). -/
theorem test_decode_lda_abs : decode [0b10101101#8, 0b00110100#8, 0b00010010#8] = .ok (.ldaAbs 0x1234#16, []) := rfl
/-- `BD 40 42` (E7). -/
theorem test_decode_lda_abs_x : decode [0b10111101#8, 0b01000000#8, 0b01000010#8] = .ok (.ldaAbsX 0x4240#16, []) := rfl
/-- `B9 40 42` (E7). -/
theorem test_decode_lda_abs_y : decode [0b10111001#8, 0b01000000#8, 0b01000010#8] = .ok (.ldaAbsY 0x4240#16, []) := rfl
/-- `A5 10` (V-Z1). -/
theorem test_decode_lda_zp : decode [0b10100101#8, 0b00010000#8] = .ok (.ldaZp 0x10#8, []) := rfl
/-- 0x00 and 0xB5 have no entry (R66, R69). -/
theorem test_decode_unrecognized : decode [0x00#8, 1#8] = .error (.unrecognized 0x00#8) ∧
    decode [0xB5#8, 1#8] = .error (.unrecognized 0xB5#8) := ⟨rfl, rfl⟩
theorem test_decode_truncated : decode [] = .error .noBytes ∧ decode [0xA9#8] = .error (.missingOperand 0xA9#8) ∧
    decode [0xAD#8, 0x34#8] = .error (.missingOperand 0xAD#8) := ⟨rfl, rfl, rfl⟩
/-- An operand byte is not decoded (V-F6). -/
theorem test_decode_operand_is_not_opcode : decode [0xA9#8, 0xEA#8] = .ok (.ldaImm 0xEA#8, []) := rfl
theorem test_encode_lda_abs_x : encode (.ldaAbsX 0x4240#16) = [0xBD#8, 0x40#8, 0x42#8] := by decide
/-- The table's numbering: the first byte is bits 7 to 0. -/
theorem test_table_words : decodeTableWord 8 0xEA = some .nop ∧ decodeTableWord 16 0x42A9 = some (.ldaImm 0x42#8) ∧
    decodeTableWord 24 0x1234AD = some (.ldaAbs 0x1234#16) ∧ decodeTableWord 24 0x4240BD = some (.ldaAbsX 0x4240#16) ∧
    decodeTableWord 24 0x4240B9 = some (.ldaAbsY 0x4240#16) ∧ decodeTableWord 16 0x10A5 = some (.ldaZp 0x10#8) := by decide
/-- With no bits given for the operand its bytes are 0. -/
theorem test_table_word_without_operand_bits : decodeTableWord 8 0xBD = some (.ldaAbsX 0#16) ∧
    decodeTableWord 8 0x5BD = some (.ldaAbsX 0#16) ∧ decodeTableWord 8 0xFF = none := by decide
/-- The lengths of R59's table. -/
theorem test_lengths : instrLength .nop = 1 ∧ instrLength (.ldaImm 1#8) = 2 ∧ instrLength (.ldaAbs 1#16) = 3 ∧
    instrLength (.ldaAbsX 1#16) = 3 ∧ instrLength (.ldaAbsY 1#16) = 3 ∧ instrLength (.ldaZp 1#8) = 2 := by decide
/-- R67's syntax column. -/
theorem test_assembly : String.ofList (assembly (.ldaAbsX 0x4240#16)) = "LDA $4240,X" ∧
    String.ofList (assembly (.ldaImm 0xAB#8)) = "LDA #$AB" ∧ String.ofList (assembly (.ldaZp 0x10#8)) = "LDA $10" := by decide

/-! ### The bus -/

/-- E1. -/
theorem test_byte_round_trip : (writeByte [] 0x1234 0xAB).toOption.map (readByte · 0x1234 |>.toOption) =
    some (some 0xAB#8) := by decide
/-- V-M1 and V-M3. -/
theorem test_byte_at_the_top : (writeByte [] 0xFFFF 0x01).toOption = some [(0xFFFF, 1#8)] ∧
    readByte [] 0x10000 = .error (.boundsFault 0x10000 1) := ⟨by decide, rfl⟩
/-- V-M5. -/
theorem test_write_word_too_wide : writeWord [] 0x0300 0x10000 = .error (.valueRangeFault .word 0x10000) := rfl
/-- V-M6. -/
theorem test_write_word_little_endian : (writeWord [] 0x0400 0x1234).toOption =
    some [(0x0400, 0x34#8), (0x0401, 0x12#8)] := by decide
/-- V-M7: writing 0 over a listed byte removes the entry. -/
theorem test_write_zero_removes_entry : ((writeWord [] 0x0400 0xABCD).toOption.bind
    fun m => (writeByte m 0x0401 0).toOption) = some [(0x0400, 0xCD#8)] := by decide
/-- V-M8: overlapping words. -/
theorem test_overlapping_words : ((writeWord [] 0x0400 0x1234).toOption.bind fun m =>
    (writeByte m 0x0402 0x56).toOption.bind fun m' => (readWord m' 0x0401).toOption) = some 0x5612#16 := by decide
/-- V-M10: the bounds check comes first. -/
theorem test_write_byte_bounds_first : writeByte [] 0x10000 256 = .error (.boundsFault 0x10000 1) := rfl
/-- E4. -/
theorem test_word_at_the_top : readWord [] 0xFFFF = .error (.boundsFault 0xFFFF 2) ∧
    writeWord [] 0xFFFF 0 = .error (.boundsFault 0xFFFF 2) := ⟨rfl, rfl⟩

/-! ### One step, per instruction -/

/-- V-NOP1. -/
theorem test_nop : nextOf (step (loadedCore 0x0200#16 [0xEA#8])) =
    some { loadedCore 0x0200#16 [0xEA#8] with pc := 0x0201#16, cyc := 2 } := by decide
/-- V-NOP3: the status byte 0xFF and A are kept. -/
theorem test_nop_keeps_flags : (nextOf (step { loadedCore 0x0200#16 [0xEA#8] with
    a := 0x1234#16, flags := ⟨true, true, true, true, true, true, true, true⟩ })).map
    (fun t => (compose t.flags, t.a)) = some (0xFF#8, 0x1234#16) := by decide
/-- E6, the row `A9 80`. -/
theorem test_lda_imm_negative : columns (step (loadedCore 0x0200#16 [0xA9#8, 0x80#8])) =
    some (0x0202#16, 0x0080#16, true, false, 2) := by decide
/-- V-I1: bits 15 to 8 of A are cleared. -/
theorem test_lda_imm_clears_high_byte : columns (step { loadedCore 0x0200#16 [0xA9#8, 0x01#8] with a := 0x1234#16 }) =
    some (0x0202#16, 0x0001#16, false, false, 2) := by decide
/-- V-A5: the word's bit 15 is not N. -/
theorem test_lda_abs_word : columns (step (withBytes 0x0300 [0x00#8, 0x80#8] (loadedCore 0x0200#16 [0xAD#8, 0x00#8, 0x03#8]))) =
    some (0x0203#16, 0x8000#16, false, false, 4) := by decide
/-- V-A2. -/
theorem test_lda_abs_top_faults : faultOf (step (loadedCore 0x0200#16 [0xAD#8, 0xFF#8, 0xFF#8])) =
    some (.boundsFault 0xFFFF 2) := by decide
/-- V-X3: a sum of exactly 0x100 has no penalty. -/
theorem test_lda_abs_x_boundary : columns (step { withBytes 0x4300 [0x34#8, 0x12#8]
    (loadedCore 0x0200#16 [0xBD#8, 0xFF#8, 0x42#8]) with x := 1#16 }) =
    some (0x0203#16, 0x1234#16, false, false, 4) := by decide
/-- V-X10: the address does not wrap. -/
theorem test_lda_abs_x_no_wrap : faultOf (step { loadedCore 0x0200#16 [0xBD#8, 0x00#8, 0xFF#8] with x := 0x0100#16 }) =
    some (.boundsFault 0x10000 2) := by decide
/-- V-X16: the whole offset counts. -/
theorem test_lda_abs_y_penalty : columns (step { withBytes 0x4340 [0x80#8, 0x00#8]
    (loadedCore 0x0200#16 [0xB9#8, 0x40#8, 0x42#8]) with y := 0x0100#16 }) =
    some (0x0203#16, 0x0080#16, true, false, 5) := by decide
/-- V-X14: X plays no part. -/
theorem test_lda_abs_y_ignores_x : columns (step { withBytes 0x4240 [0x05#8, 0x00#8]
    (loadedCore 0x0200#16 [0xB9#8, 0x40#8, 0x42#8]) with x := 0x00FF#16 }) =
    some (0x0203#16, 0x0005#16, false, false, 4) := by decide
/-- V-Z1. -/
theorem test_lda_zp : columns (step (withBytes 0x0010 [0x34#8, 0x12#8] (loadedCore 0x0200#16 [0xA5#8, 0x10#8]))) =
    some (0x0202#16, 0x1234#16, false, false, 3) := by decide
/-- V-Z2: the word at 0xFF takes its high byte from 0x0100, not from 0x0000. -/
theorem test_lda_zp_no_wrap : columns (step (withBytes 0x0000 [0x99#8] (withBytes 0x00FF [0x01#8, 0x02#8]
    (loadedCore 0x0200#16 [0xA5#8, 0xFF#8])))) = some (0x0202#16, 0x0201#16, false, false, 3) := by decide

/-! ### Halts, fetch faults and the budget -/

/-- E8: the fetched byte, its address, PC past it, CYC as before. -/
theorem test_unrecognized_halts : iteration (loadedCore 0x0200#16 [0xFF#8]) =
    .unrecognized 0xFF#8 0x0200#16 { loadedCore 0x0200#16 [0xFF#8] with pc := 0x0201#16 } := by decide
/-- V-F9: a fault, not a halt. -/
theorem test_unrecognized_at_the_top_faults : iteration (loadedCore 0xFFFF#16 [0xFF#8]) =
    .faulted (.valueRangeFault .pc 0x10000) := by decide
/-- V-F10. -/
theorem test_operand_byte_at_the_top_faults : iteration (loadedCore 0xFFFE#16 [0xA9#8, 0x05#8]) =
    .faulted (.valueRangeFault .pc 0x10000) := by decide
/-- V-F11. -/
theorem test_operand_word_at_the_top_faults : iteration (loadedCore 0xFFFD#16 [0xAD#8, 0x00#8, 0x02#8]) =
    .faulted (.valueRangeFault .pc 0x10000) := by decide
/-- V-F12. -/
theorem test_operand_word_past_the_top_faults : iteration (loadedCore 0xFFFE#16 [0xAD#8, 0x00#8]) =
    .faulted (.boundsFault 0xFFFF 2) := by decide
/-- V-F13: the last instruction fits. -/
theorem test_last_instruction_fits : columns (step (loadedCore 0xFFFD#16 [0xA9#8, 0x05#8])) =
    some (0xFFFF#16, 0x0005#16, false, false, 2) := by decide
/-- V-NOP2: a NOP that starts below the budget runs whole. -/
theorem test_execute_overshoots : execute 1 (loadedCore 0x0200#16 [0xEA#8]) =
    .ok 2 .budget { loadedCore 0x0200#16 [0xEA#8] with pc := 0x0201#16, cyc := 2 } := by decide
/-- E9. -/
theorem test_execute_zero : execute 0 (loadedCore 0x0200#16 [0xEA#8]) =
    .ok 0 .budget (loadedCore 0x0200#16 [0xEA#8]) := by decide

/-! ### Flags and the host -/

/-- V-N1: V and C are kept, Z is set. -/
theorem test_load_zero_status : ((loadAccumulator 0 { State.reset with
    flags := ⟨false, true, false, false, false, false, false, true⟩ }).toOption.map fun t => compose t.flags) =
    some 0x43#8 := by decide
/-- V-N7. -/
theorem test_load_negative_status : ((loadAccumulator 0xFF80 { State.reset with
    flags := ⟨false, true, false, false, false, false, false, true⟩ }).toOption.map fun t => compose t.flags) =
    some 0xC1#8 := by decide
/-- V-N9. -/
theorem test_load_too_wide : loadAccumulator 0x10000 State.reset = .error (.valueRangeFault .a 0x10000) := rfl
/-- The row "status" of 95_test_vectors.md section 2.5, the columns N, E, I and C. -/
theorem test_compose_single_flags :
    compose (Flags.clear.put true .n) = 0x80#8 ∧ compose (Flags.clear.put true .e) = 0x20#8 ∧
    compose (Flags.clear.put true .i) = 0x04#8 ∧ compose (Flags.clear.put true .c) = 0x01#8 := by decide
/-- The same row, the columns V, B, D and Z. -/
theorem test_compose_other_flags :
    compose (Flags.clear.put true .v) = 0x40#8 ∧ compose (Flags.clear.put true .b) = 0x10#8 ∧
    compose (Flags.clear.put true .d) = 0x08#8 ∧ compose (Flags.clear.put true .z) = 0x02#8 := by decide
/-- V-H2. -/
theorem test_reset_state : State.reset = { State.construct [] 0xFFFC#16 with pc := 0xFFFC#16 } ∧
    hostStep .reset (State.construct [] 0xFFFC#16) = .ok .nothing State.reset := by decide
/-- V-H4. -/
theorem test_construct_refuses_wide_vector : constructCore [] 0x10000 = .refused (.argumentOutsideType 0x10000) := rfl
/-- V-H5. -/
theorem test_execute_refuses_negative : hostStep (.execute (-1)) State.reset = .refused (.argumentOutsideType (-1)) := by
  decide
/-- V-H6. -/
theorem test_set_x_too_wide : hostStep (.setX 0x10000) State.reset =
    .argumentFault (.valueRangeFault .x 0x10000) State.reset := by decide
/-- V-H7. -/
theorem test_set_x_keeps_flags : hostStep (.setX 0x0080) State.reset = .ok .nothing { State.reset with x := 0x0080#16 } := by
  decide
/-- V-H8. -/
theorem test_set_a_sets_flags : hostStep (.setA 0x0180) State.reset = .ok .nothing { State.reset with
    a := 0x0180#16, flags := { Flags.clear with negative := true } } := by decide

/-! ### Placing an instruction -/

/-- Each of the six, placed where the reset state fetches, is what the next step runs. At 0xFFFC the word loads' operands end
at 0xFFFE, so no fetch faults (R151); with zero operands the data word is 0. -/
theorem test_placed_words_run :
    [(8, 0xEA), (16, 0x80A9), (8, 0xAD), (24, 0xFFFCBD), (8, 0xB9), (16, 0x10A5)].map
      (fun (row : Nat × Nat) => columns (step (State.reset.withFetchWord row.1 row.2))) =
    [some (0xFFFD#16, 0#16, false, false, 2), some (0xFFFE#16, 0x80#16, true, false, 2),
     some (0xFFFF#16, 0#16, false, true, 4), some (0xFFFF#16, 0xFCBD#16, true, false, 4),
     some (0xFFFF#16, 0#16, false, true, 4), some (0xFFFE#16, 0#16, false, true, 3)] := by decide

/-! ### Witnesses: concrete states and operands that meet the hypotheses of the obligation a theorem is named after, one for
each clause, at a boundary of its range -/

theorem witness_TableHasExactlySixOpcodes : ¬Recognized 0x00#8 ∧ ¬Recognized 0xFF#8 := by decide
theorem witness_DecodeAcceptsExactlyEncodings : decode [0xAD#8, 0xFF#8, 0xFF#8, 7#8] = .ok (.ldaAbs 0xFFFF#16, [7#8]) ∧
    [0xAD#8, 0xFF#8, 0xFF#8, 7#8] = encode (.ldaAbs 0xFFFF#16) ++ [7#8] := ⟨rfl, by decide⟩
theorem witness_UnrecognizedBytesBeginNoEncoding : lookupOpcode 0x00#8 = none ∧
    ∀ i : Instr, (encode i).head? ≠ some 0x00#8 := ⟨rfl, fun i => by cases i <;> simp [encode]⟩
theorem witness_OpcodeByteFixesLength : (encode (.ldaAbs 0#16)).head? = (encode (.ldaAbs 0xFFFF#16)).head? := by decide
theorem witness_ReadByteContract : 65535 < 65536 ∧ 65536 ≤ 65536 := by decide
theorem witness_ReadWordContract : 65534 + 1 < 65536 ∧ 65536 ≤ 65535 + 1 := by decide
theorem witness_WriteByteContract : Memory.wf [(5, 1#8)] = true ∧ (65535 < 65536 ∧ 255 ≤ 255) ∧ (65535 < 65536 ∧ 255 < 256) ∧
    65536 ≤ 65536 := by decide
theorem witness_WriteWordContract : Memory.wf [(5, 1#8)] = true ∧ (65534 + 1 < 65536 ∧ 65535 ≤ 65535) ∧
    (65534 + 1 < 65536 ∧ 65535 < 65536) ∧ 65536 ≤ 65535 + 1 := by decide
theorem witness_BusRoundTripLaws : Memory.wf [(5, 1#8)] = true ∧ 65535 < 65536 ∧ 65534 ≤ 65534 := by decide
theorem witness_CanonicalImagesAreDeterminedByReads : Memory.wf [(0xFFFF, 1#8)] = true ∧
    ∀ a, a < 65536 → Memory.lookup [(0xFFFF, 1#8)] a = Memory.lookup (Memory.store [] 0xFFFF 1#8) a :=
  ⟨by decide, fun _ _ => rfl⟩
theorem witness_StatusByteLayoutAndUnread :
    exec (.ldaAbs 0xFFFF#16) State.reset = .fault (.boundsFault 0xFFFF 2) ∧
    ∃ t, exec (.ldaAbs 0xFFFE#16) State.reset = .next t := ⟨rfl, _, rfl⟩
/-- One value in each class, at its ends, with the load's success. -/
theorem witness_LoadNeverSetsBothNandZ :
    ([0, 1, 0x7F, 0x80, 0xFF, 0x100, 0x17F, 0xFF80, 0xFFFF].all fun v => (loadAccumulator v State.reset).toOption.isSome) =
      true ∧
    (1 ≤ 0x7F ∧ 0x7F ≤ 0x7F) ∧ (0x80 ≤ 0x80 ∧ 0xFF ≤ 0xFF) ∧ (0x100 ≤ 0x17F ∧ 0x17F % 0x100 < 0x80) ∧
    (0x100 ≤ 0xFF80 ∧ 0x80 ≤ 0xFF80 % 0x100) := by decide
theorem witness_AccumulatorIsWrittenByOneOperation :
    0xFFFF ≤ 0xFFFF ∧ 0xFFFF < 0x10000 ∧
    (∃ t, iteration (loadedCore 0x0200#16 [0xA9#8, 0x80#8]) = .continues t) ∧
    (∃ t, iteration (loadedCore 0xFFFE#16 [0xFF#8]) = .unrecognized 0xFF#8 0xFFFE#16 t) ∧
    (∃ t, hostStep (.setX 1) State.reset = .ok .nothing t ∧ (∀ v, HostOp.setX 1 ≠ .setA v) ∧
      ∀ m, HostOp.setX 1 ≠ .execute m) ∧
    ∃ t, hostStep (.setA 0xFFFF) State.reset = .ok .nothing t :=
  ⟨by decide, by decide, ⟨_, rfl⟩, ⟨_, rfl⟩, ⟨_, rfl, nofun, nofun⟩, _, rfl⟩
theorem witness_SixFlagsSurviveExecution :
    (∃ t, step (loadedCore 0x0200#16 [0xA9#8, 0x80#8]) = .next t) ∧
    ∃ reply t, session ([1, 3].map fun (m : Nat) => HostOp.execute (m : Int))
      (loadedCore 0x0200#16 [0xA9#8, 0x80#8, 0xEA#8]) = .ok reply t := ⟨⟨_, rfl⟩, _, _, rfl⟩
theorem witness_NandZFollowTheAccumulator :
    (∃ t, loadAccumulator 0xFFFF State.reset = .ok t) ∧
    (Instr.ldaImm 0#8 ≠ .nop ∧ ∃ t, exec (.ldaImm 0#8) State.reset = .next t) ∧
    (FlagsAgree { loadedCore 0x0200#16 [0xEA#8] with a := 0x0180#16, flags := { Flags.clear with negative := true } } ∧
      ∃ t, step { loadedCore 0x0200#16 [0xEA#8] with a := 0x0180#16, flags := { Flags.clear with negative := true } } =
        .next t) ∧
    ∃ t, FlagsAgree { State.reset with a := 1#16 } ∧ hostStep .reset { State.reset with a := 1#16 } = .ok .nothing t ∧
      ∀ b, HostOp.reset ≠ .setFlag .n b ∧ HostOp.reset ≠ .setFlag .z b :=
  ⟨⟨_, rfl⟩, ⟨by decide, _, rfl⟩, ⟨by decide, _, rfl⟩, _, by decide, rfl, fun _ => ⟨nofun, nofun⟩⟩
theorem witness_PageCrossFormula : (0x42FF#16).toNat % 256 + (1#16).toNat = 0x100 ∧
    (0x42FF#16).toNat % 256 = (0x00FF#16).toNat % 256 := by decide
theorem witness_WordLoadsComplete : (0xFFFE#16).toNat ≤ 0xFFFE ∧
    (0xFFFD#16).toNat + { State.reset with x := 1#16 }.x.toNat ≤ 0xFFFE ∧
    (0#16).toNat + { State.reset with y := 0xFFFE#16 }.y.toNat ≤ 0xFFFE := by decide
theorem witness_HandlerFrame : (∃ t, exec .nop State.reset = .next t) ∧ ∃ t, exec (.ldaZp 0xFF#8) State.reset = .next t :=
  ⟨⟨_, rfl⟩, _, rfl⟩
theorem witness_EachIndexedLoadReadsItsOwnRegister :
    (∃ t, exec (.ldaAbsY 0xFFFE#16) State.reset = .next t) ∧ ∃ t, exec (.ldaAbsX 0xFFFE#16) State.reset = .next t :=
  ⟨⟨_, rfl⟩, _, rfl⟩
theorem witness_StepRunsTheDecodedInstruction :
    decode ((loadedCore 0xFFFC#16 [0xAD#8, 0x34#8, 0x12#8]).mem.bytesAt 0xFFFC 3) = .ok (.ldaAbs 0x1234#16, []) ∧
    Instr.wellFormed (.ldaAbs 0x1234#16) = true ∧
    FetchInside (.ldaAbs 0x1234#16) (loadedCore 0xFFFC#16 [0xAD#8, 0x34#8, 0x12#8]) := ⟨rfl, rfl, by decide⟩
theorem witness_NopIteration : (loadedCore 0xFFFE#16 [0xEA#8]).pc.toNat ≤ 0xFFFE ∧
    (loadedCore 0xFFFE#16 [0xEA#8]).mem.lookup 0xFFFE = 0xEA#8 := by decide
theorem witness_LdaImmediateIteration : (loadedCore 0xFFFD#16 [0xA9#8, 5#8]).pc.toNat + 2 ≤ 0xFFFF ∧
    (loadedCore 0xFFFD#16 [0xA9#8, 5#8]).mem.lookup 0xFFFD = 0xA9#8 := by decide
theorem witness_LdaZeroPageIteration : (loadedCore 0xFFFD#16 [0xA5#8, 0xFF#8]).pc.toNat + 2 ≤ 0xFFFF ∧
    (loadedCore 0xFFFD#16 [0xA5#8, 0xFF#8]).mem.lookup 0xFFFD = 0xA5#8 := by decide
theorem witness_LdaAbsoluteIteration : (loadedCore 0xFFFC#16 [0xAD#8, 0xFE#8, 0xFF#8]).pc.toNat + 3 ≤ 0xFFFF ∧
    (loadedCore 0xFFFC#16 [0xAD#8, 0xFE#8, 0xFF#8]).mem.lookup 0xFFFC = 0xAD#8 ∧
    storedWord (loadedCore 0xFFFC#16 [0xAD#8, 0xFE#8, 0xFF#8]).mem (0xFFFC + 1) ≤ 0xFFFE := by decide
/-- The base is 0xFFFD and the index 1, so the address is 0xFFFE, for each of the two. -/
theorem witness_LdaIndexedIterations :
    (0xFFFD = storedWord (loadedCore 0xFFFC#16 [0xBD#8, 0xFD#8, 0xFF#8]).mem (0xFFFC + 1) ∧ 0xFFFC + 3 ≤ 0xFFFF ∧
      (loadedCore 0xFFFC#16 [0xBD#8, 0xFD#8, 0xFF#8]).mem.lookup 0xFFFC = 0xBD#8 ∧ 0xFFFD + (1#16).toNat ≤ 0xFFFE) ∧
    0xFFFD = storedWord (loadedCore 0xFFFC#16 [0xB9#8, 0xFD#8, 0xFF#8]).mem (0xFFFC + 1) ∧
      (loadedCore 0xFFFC#16 [0xB9#8, 0xFD#8, 0xFF#8]).mem.lookup 0xFFFC = 0xB9#8 ∧ 0xFFFD + (1#16).toNat ≤ 0xFFFE := by
  decide
theorem witness_UnrecognizedOpcodeHalts : (loadedCore 0xFFFE#16 [0xFF#8]).pc.toNat ≤ 0xFFFE ∧
    ¬Recognized ((loadedCore 0xFFFE#16 [0xFF#8]).mem.lookup 0xFFFE) := by decide
/-- The four clauses; 0xFFFF, 0xFFFE with the two kinds of operand, and 0xFFFD. -/
theorem witness_FetchFaults :
    (loadedCore 0xFFFF#16 [0xEA#8]).pc.toNat = 0xFFFF ∧
    ((loadedCore 0xFFFE#16 [0xA9#8]).pc.toNat = 0xFFFE ∧ (loadedCore 0xFFFE#16 [0xA9#8]).mem.lookup 0xFFFE = 0xA9#8) ∧
    ((loadedCore 0xFFFE#16 [0xAD#8]).pc.toNat = 0xFFFE ∧ (loadedCore 0xFFFE#16 [0xAD#8]).mem.lookup 0xFFFE = 0xAD#8) ∧
    (loadedCore 0xFFFD#16 [0xB9#8]).pc.toNat = 0xFFFD ∧ (loadedCore 0xFFFD#16 [0xB9#8]).mem.lookup 0xFFFD = 0xB9#8 := by
  decide
theorem witness_DataReadFaults :
    exec (.ldaAbsX 0xFFFE#16) { State.reset with x := 1#16 } = .fault (.boundsFault 0xFFFF 2) ∧
    dataAddress (.ldaAbsX 0xFFFE#16) { State.reset with x := 1#16 } = some 0xFFFF ∧ 0xFFFE < 0xFFFF := ⟨rfl, rfl, by decide⟩
theorem witness_StepIsSafeExactlyWhenInside : StandsAtPc (.ldaImm 5#8) (loadedCore 0xFFFD#16 [0xA9#8, 5#8]) ∧
    StepSafe (loadedCore 0xFFFD#16 [0xA9#8, 5#8]) ∧
    StandsAtPc (.ldaAbs 0xFFFF#16) (loadedCore 0x0200#16 [0xAD#8, 0xFF#8, 0xFF#8]) := ⟨by decide, ⟨_, rfl⟩, by decide⟩
theorem witness_ContinuingIterationCostAndFlow : ∃ t, iteration (loadedCore 0xFFFD#16 [0xA9#8, 5#8]) = .continues t :=
  ⟨_, rfl⟩
theorem witness_StepFrame : ∃ t, step (loadedCore 0xFFFC#16 [0xAD#8, 0xFE#8, 0xFF#8]) = .next t := ⟨_, rfl⟩
theorem witness_StepKeepsInvariant : Inv (loadedCore 0xFFFC#16 [0xAD#8, 0xFE#8, 0xFF#8]) ∧
    ∃ t, step (loadedCore 0xFFFC#16 [0xAD#8, 0xFE#8, 0xFF#8]) = .next t := ⟨by decide, _, rfl⟩
theorem witness_FlagsSteerNothing :
    (∃ t, iteration (loadedCore 0x0200#16 [0xA9#8, 0x00#8]) = .continues t) ∧
    (∃ t, iteration (loadedCore 0xFFFE#16 [0xFF#8]) = .unrecognized 0xFF#8 0xFFFE#16 t) ∧
    iteration (loadedCore 0xFFFF#16 [0xFF#8]) = .faulted (.valueRangeFault .pc 0x10000) := ⟨⟨_, rfl⟩, ⟨_, rfl⟩, rfl⟩
/-- Another image, different from the core's just past the data word. -/
theorem witness_IterationReadsOnlyItsAccesses :
    let s := loadedCore 0x0200#16 [0xAD#8, 0x00#8, 0x03#8]
    let m := s.mem.store 0x0302 1#8
    m ≠ s.mem ∧ ∀ access, access ∈ accesses s → ∀ k, k < access.width →
      m.lookup (access.addr + k) = s.mem.lookup (access.addr + k) := by decide
theorem witness_AccessesByInstruction : StandsAtPc (.ldaAbs 0xFFFF#16) (loadedCore 0xFFFC#16 [0xAD#8, 0xFF#8, 0xFF#8]) ∧
    FetchInside (.ldaAbs 0xFFFF#16) (loadedCore 0xFFFC#16 [0xAD#8, 0xFF#8, 0xFF#8]) := by decide
theorem witness_PlacedWordIsRunNext : State.reset.mem.wf = true ∧ FetchInside (.ldaAbs 0x1234#16) State.reset ∧
    0x1234AD = ((encode (.ldaAbs 0x1234#16)).getD 0 0).toNat + 0x100 * ((encode (.ldaAbs 0x1234#16)).getD 1 0).toNat +
      0x10000 * ((encode (.ldaAbs 0x1234#16)).getD 2 0).toNat := by decide
theorem witness_SpentBudgetDoesNoWork : 7 ≤ { State.reset with cyc := 7 }.cyc := by decide
/-- A budget end at the largest overshoot (V-F7's second load), and a halt. -/
theorem witness_OvershootIsAtMostFour :
    (∃ t, execute 1 { loadedCore 0x0200#16 [0xBD#8, 0xFF#8, 0x42#8] with x := 2#16 } = .ok 5 .budget t) ∧
    (∃ t, execute 1 (loadedCore 0x0200#16 [0xFF#8]) = .ok 0 (.unrecognized 0xFF#8 0x0200#16) t) ∧
    (loadedCore 0x0200#16 [0xFF#8]).cyc < 1 := ⟨⟨_, rfl⟩, ⟨_, rfl⟩, by decide⟩
theorem witness_HalfTheBudgetInIterationsIsEnough : (5 - State.reset.cyc + 1) / 2 ≤ 3 := by decide
theorem witness_LaterCallContinuesEarlierCall :
    2 ≤ 4 ∧ ∃ t, execute 2 (loadedCore 0x0200#16 [0xA9#8, 1#8, 0xA9#8, 2#8]) = .ok 2 .budget t := ⟨by decide, _, rfl⟩
theorem witness_RegisterSetters : 0xFFFF ≤ 0xFFFF ∧ 0xFFFF < 0x10000 := by decide
theorem witness_FlagAccessors : Flag.c ≠ Flag.n := by decide
theorem witness_IndexRegistersBelongToTheHost :
    (∃ t, step (loadedCore 0x0200#16 [0xEA#8]) = .next t) ∧
    (∃ t, hostStep (.setA 1) State.reset = .ok .nothing t ∧ (∀ v, HostOp.setA 1 ≠ .setX v) ∧ ∀ v, HostOp.setA 1 ≠ .setY v) ∧
    (∃ t, hostStep (.setX 0xFFFF) State.reset = .ok .nothing t) ∧ (∃ t, hostStep (.setY 0xFFFF) State.reset = .ok .nothing t) ∧
    (0xFFFD#16).toNat + { State.reset with x := 1#16 }.x.toNat ≤ 0xFFFE ∧
    (0xFFFD#16).toNat + { State.reset with y := 1#16 }.y.toNat ≤ 0xFFFE :=
  ⟨⟨_, rfl⟩, ⟨_, rfl, nofun, nofun⟩, ⟨_, rfl⟩, ⟨_, rfl⟩, by decide, by decide⟩
theorem witness_OnlyResetAndExecuteMovePc : ∃ t, hostStep (.setA 0xFFFF) State.reset = .ok .nothing t ∧
    HostOp.setA 0xFFFF ≠ .reset ∧ ∀ m, HostOp.setA 0xFFFF ≠ .execute m := ⟨_, rfl, nofun, nofun⟩
theorem witness_ArgumentsOutsideTheirTypeAreRefused : ((-1 : Int) < 0 ∧ (0 : Int) ≤ 0) ∧
    ((-1 : Int) < 0 ∨ 0xFFFF < (-1 : Int)) ∧ ((0x10000 : Int) < 0 ∨ 0xFFFF < (0x10000 : Int)) := by decide
theorem witness_SessionsKeepCanonicalMemory : State.reset.mem.wf = true ∧
    ∃ reply t, session [.writeByte 0xFFFF 255, .setX 0x10000, .writeWord 0xFFFE 0] State.reset = .ok reply t :=
  ⟨by decide, _, _, rfl⟩
theorem witness_HostWriteIsSeenByTheNextFetch : { State.reset with pc := 0xFFFE#16 }.mem.wf = true ∧
    { State.reset with pc := 0xFFFE#16 }.pc.toNat ≤ 0xFFFE := by decide
theorem witness_SessionEndsAtAFaultAndOutlivesAHalt :
    execute 1 (loadedCore 0xFFFF#16 [0xFF#8]) = .fault (.valueRangeFault .pc 0x10000) ∧
    ∃ t, execute 1 (loadedCore 0xFFFE#16 [0xFF#8]) = .ok 0 (.unrecognized 0xFF#8 0xFFFE#16) t := ⟨rfl, _, rfl⟩

theorem witness_HostBusOperationsAreTheBusContract :
    Memory.wf [(5, 1#8)] = true ∧ (65535 < 65536 ∧ 255 ≤ 255) ∧ (65535 < 65536 ∧ 255 < 256) ∧ 65536 ≤ 65536 ∧
    (65534 + 1 < 65536 ∧ 65535 ≤ 65535) ∧ (65534 + 1 < 65536 ∧ 65535 < 65536) ∧ 65536 ≤ 65535 + 1 ∧
    hostStep (.writeByte 0x1234 256) State.reset = .argumentFault (.valueRangeFault .byte 256) State.reset := by decide

end Sys2Proof.Tests
end

section
/-! PROOFS. The bus contract of 20_memory.md: the two reads (R40, R41) and the round-trip laws (R44). -/

namespace Sys2Proof.Machine

/-- A bus write of a byte inside the space is a store. -/
theorem writeByte_toNat (m : Memory) {a : Nat} (ha : a ≤ 0xFFFF) (v : Byte) :
    writeByte m a v.toNat = .ok (m.store a v) := by
  have hv : v.toNat ≤ 0xFF := by omega
  rw [writeByte_eq, if_pos ha, if_pos hv, BitVec.ofNat_toNat, BitVec.setWidth_eq]

theorem ofNat_mod_eq_loByte (w : Word) : BitVec.ofNat 8 (w.toNat % 0x100) = loByte w := by
  apply BitVec.eq_of_toNat_eq
  simp only [BitVec.toNat_ofNat, loByte_toNat]; omega

theorem ofNat_div_eq_hiByte (w : Word) : BitVec.ofNat 8 (w.toNat / 0x100) = hiByte w := by
  apply BitVec.eq_of_toNat_eq
  simp only [BitVec.toNat_ofNat, hiByte_toNat]; omega

/-- A bus write of a word inside the space stores its two bytes, the low one lower. -/
theorem writeWord_toNat (m : Memory) {a : Nat} (ha : a ≤ 0xFFFE) (w : Word) :
    writeWord m a w.toNat = .ok (m.storeBytes a [loByte w, hiByte w]) := by
  have hw : w.toNat ≤ 0xFFFF := by omega
  have hlo : a < Config.memSize := Nat.lt_of_le_of_lt ha (by decide)
  have hhi : a + 1 < Config.memSize := Nat.lt_succ_of_le (Nat.succ_le_succ ha)
  rw [writeWord_eq, if_pos ha, if_pos hw, ofNat_mod_eq_loByte, ofNat_div_eq_hiByte]
  simp only [Memory.storeBytes, if_pos hlo, if_pos hhi]

/-- A byte stored in a canonical image is the byte read back. -/
theorem readByte_store {m : Memory} (h : m.wf = true) {a : Nat} (ha : a ≤ 0xFFFF) (v : Byte) :
    readByte (m.store a v) a = .ok v := by
  rw [readByte_eq, if_pos ha, lookup_store h, if_pos rfl]

/-- Bytes stored inside the space are at their addresses. -/
theorem lookup_storeBytes_at {m : Memory} (h : m.wf = true) {a : Nat} {vs : List Byte} (i : Nat) (hi : i < vs.length)
    (ha : a + i ≤ 0xFFFF) : (m.storeBytes a vs).lookup (a + i) = vs.getD i 0 := by
  have hs : a + i < Config.memSize := Nat.lt_succ_of_le ha
  rw [lookup_storeBytes h, if_pos ⟨by omega, by omega, hs⟩, Nat.add_sub_cancel_left]

theorem readByte_storeBytes {m : Memory} (h : m.wf = true) {a : Nat} {vs : List Byte} (i : Nat) (hi : i < vs.length)
    (ha : a + i ≤ 0xFFFF) : readByte (m.storeBytes a vs) (a + i) = .ok (vs.getD i 0) := by
  rw [readByte_eq, if_pos ha, lookup_storeBytes_at h i hi ha]

/-- A word whose two bytes are stored in a canonical image is the word read back. -/
theorem readWord_storeBytes {m : Memory} (h : m.wf = true) {a : Nat} (ha : a ≤ 0xFFFE) (w : Word) :
    readWord (m.storeBytes a [loByte w, hiByte w]) a = .ok w := by
  have hlo : (m.storeBytes a [loByte w, hiByte w]).lookup a = loByte w :=
    lookup_storeBytes_at h 0 Nat.zero_lt_two (by omega)
  have hhi : (m.storeBytes a [loByte w, hiByte w]).lookup (a + 1) = hiByte w :=
    lookup_storeBytes_at h 1 Nat.one_lt_two (by omega)
  rw [readWord_eq, if_pos ha, hlo, hhi, wordOfBytes_lo_hi]

/-- Settles O9: a write inside the space is a store, and what a store puts in a canonical image is read back; at 65535 both
word operations fail their bounds check. -/
theorem busRoundTripLaws : Obligations.BusRoundTripLaws := by
  intro m hwf
  refine ⟨fun a v ha => ?byte, fun a w ha => ?word, fun w => ?writeAtTop, ?readAtTop⟩
  case byte =>
    have ha' : a ≤ 0xFFFF := Nat.le_of_lt_succ ha
    exact ⟨_, writeByte_toNat m ha' v, readByte_store hwf ha' v⟩
  case word =>
    exact ⟨_, writeWord_toNat m ha w, readWord_storeBytes hwf ha w, loByte w, hiByte w,
      readByte_storeBytes hwf 0 Nat.zero_lt_two (by omega),
      readByte_storeBytes hwf 1 Nat.one_lt_two (by omega), loByte_toNat w, hiByte_toNat w⟩
  case writeAtTop => rw [writeWord_eq, if_neg (by decide)]
  case readAtTop => rw [readWord_eq, if_neg (by decide)]

/-- Settles O5, by the two outcomes of the bounds check. -/
theorem readByteContract : Obligations.ReadByteContract := by
  intro m addr
  constructor
  · intro hin
    rw [readByte_eq, if_pos (by omega)]
  · intro hout
    rw [readByte_eq, if_neg (by omega)]

/-- Settles O6, by the two outcomes of the bounds check; the value of the word read is its bytes' little-endian sum. -/
theorem readWordContract : Obligations.ReadWordContract := by
  intro m addr
  constructor
  · intro hin
    rw [readWord_eq, if_pos (by omega)]
    exact ⟨_, rfl, wordOfBytes_toNat _ _⟩
  · intro hout
    rw [readWord_eq, if_neg (by omega)]

end Sys2Proof.Machine
end

section
/-! PROOFS. The decoder of 30_encoding.md: what it answers for each kind of entry of the opcode table (R58, R59, R66). -/

namespace Sys2Proof

open Sys2Proof.Safety (Recognized)

section
variable {op : Byte}

/-- An opcode byte with a row is decoded by that row's format. -/
theorem decode_row {row : OpcodeRow} (hl : lookupOpcode op = some row) (rest : List Byte) :
    decode (op :: rest) = decodeOperand op row rest := by
  simp only [decode, hl]

theorem decode_imp {i : Instr} (hl : lookupOpcode op = some (.imp i)) (rest : List Byte) :
    decode (op :: rest) = .ok (i, rest) := by
  rw [decode_row hl, decodeOperand]

theorem decode_b8 {form : Byte → Instr} (hl : lookupOpcode op = some (.b8 form)) (v : Byte) (rest : List Byte) :
    decode (op :: v :: rest) = .ok (form v, rest) := by
  rw [decode_row hl, decodeOperand]

theorem decode_w16 {form : Word → Instr} (hl : lookupOpcode op = some (.w16 form)) (lo hi : Byte) (rest : List Byte) :
    decode (op :: lo :: hi :: rest) = .ok (form (hi ++ lo), rest) := by
  rw [decode_row hl, decodeOperand, wordOfBytes_eq_append]

theorem decode_unrecognized (h : ¬Recognized op) (rest : List Byte) :
    decode (op :: rest) = .error (.unrecognized op) := by
  simp only [decode, lookupOpcode_none h]

end

/-- Settles O1: each row of the table decodes by its format, and an opcode byte outside the six has no row. -/
theorem tableHasExactlySixOpcodes : Obligations.TableHasExactlySixOpcodes := by
  intro v lo hi rest
  refine ⟨?nop, ?ldaImm, ?ldaAbs, ?ldaAbsX, ?ldaAbsY, ?ldaZp, ?other⟩
  case nop => exact decode_imp lookupOpcode_EA rest
  case ldaImm => exact decode_b8 lookupOpcode_A9 v rest
  case ldaAbs => exact decode_w16 lookupOpcode_AD lo hi rest
  case ldaAbsX => exact decode_w16 lookupOpcode_BD lo hi rest
  case ldaAbsY => exact decode_w16 lookupOpcode_B9 lo hi rest
  case ldaZp => exact decode_b8 lookupOpcode_A5 v rest
  case other => exact fun op h => decode_unrecognized h rest

end Sys2Proof
end

section
/-! PROOFS. The page-cross test of 41_addressing.md (R89). -/

namespace Sys2Proof.Machine

/-- R89: the low byte of the base plus the whole offset, strictly above 0x100. -/
theorem pageCross_iff (base offset : Word) :
    pageCross base offset = true ↔ base.toNat % 0x100 + offset.toNat > 0x100 := by
  rw [pageCross, decide_eq_true_iff]

/-- The high byte of the base takes no part in the test. -/
theorem pageCross_congr_low {base base' : Word} (offset : Word) (hlow : base.toNat % 0x100 = base'.toNat % 0x100) :
    pageCross base offset = pageCross base' offset := by
  rw [Bool.eq_iff_iff, pageCross_iff, pageCross_iff, hlow]

/-- Settles O17: the formula, the strict comparison at a sum of exactly 0x100, and the low byte of the base alone. -/
theorem pageCrossFormula : Obligations.PageCrossFormula := by
  intro base offset
  refine ⟨pageCross_iff base offset, ?strict, fun base' hlow => pageCross_congr_low offset hlow⟩
  case strict =>
    intro hsum
    rw [Bool.eq_false_iff, ne_eq, pageCross_iff]
    omega

end Sys2Proof.Machine
end

section
/-! PROOFS. The status byte, N and Z, and the accumulator of 42_flags_alu.md (R99 to R101, R104). -/

namespace Sys2Proof.Machine

open Sys2Proof.Safety

/-! ### The rules of one flag write -/

theorem setFromValue_zero_iff (v : Word) (p : Flags) : (setFromValue v p).zero = true ↔ v.toNat = 0 := by
  rw [setFromValue, beq_iff_eq, ← BitVec.toNat_inj, BitVec.toNat_ofNat, Nat.zero_mod]

theorem setFromValue_negative_iff (v : Word) (p : Flags) :
    (setFromValue v p).negative = true ↔ v.toNat / 128 % 2 = 1 := by
  rw [setFromValue, BitVec.getLsbD, Nat.testBit_eq_decide_div_mod_eq, decide_eq_true_iff]

/-- Settles O12: Z and N by their bits; the other six fields are those of the flags given. -/
theorem setFromValueRule : Obligations.SetFromValueRule := fun v p =>
  ⟨setFromValue_zero_iff v p, setFromValue_negative_iff v p, rfl, rfl, rfl, rfl, rfl, rfl⟩

theorem put_zero_of_ne {f : Flag} (hf : f ≠ .z) (b : Bool) (p : Flags) : (p.put b f).zero = p.zero := by
  cases f
  case z => exact absurd rfl hf
  all_goals rfl

theorem put_negative_of_ne {f : Flag} (hf : f ≠ .n) (b : Bool) (p : Flags) : (p.put b f).negative = p.negative := by
  cases f
  case n => exact absurd rfl hf
  all_goals rfl

/-! ### N and Z follow A -/

theorem flagsAgree_loaded {v : Nat} (hv : v ≤ 0xFFFF) (s : State) : FlagsAgree (loaded v s) := by
  have ha : (loaded v s).a.toNat = v := by rw [loaded_a, BitVec.toNat_ofNat]; omega
  rw [FlagsAgree, ha]
  exact ⟨rfl, rfl⟩

/-- Only A and the flags take part in the agreement. -/
theorem flagsAgree_congr {s t : State} (ha : t.a = s.a) (hf : t.flags = s.flags) : FlagsAgree t ↔ FlagsAgree s := by
  simp only [FlagsAgree, ha, hf]

/-- What a step does to A and the flags: nothing, or one load. -/
theorem step_next_accumulator {s t : State} (h : step s = .next t) :
    (t.a = s.a ∧ t.flags = s.flags) ∨
    ∃ v, v ≤ 0xFFFF ∧ t.a = (loaded v s).a ∧ t.flags = (loaded v s).flags := by
  obtain hc | ⟨-, -, rfl⟩ := step_next_cases h
  · obtain ⟨i, -, -, -, ⟨-, rfl⟩ | ⟨-, v, hv, rfl⟩⟩ := continues_cases hc
    · exact .inl ⟨rfl, rfl⟩
    · exact .inr ⟨v, hv, rfl, rfl⟩
  · exact .inl ⟨rfl, rfl⟩

theorem loadAccumulator_flagsAgree {v : Nat} {s t : State} (h : loadAccumulator v s = .ok t) : FlagsAgree t := by
  rw [loadAccumulator_eq] at h
  split at h
  · next hv => cases h; exact flagsAgree_loaded hv s
  · cases h

/-- Every handler but NOP's that completes has loaded A. -/
theorem exec_load_flagsAgree {i : Instr} {s t : State} (hi : i ≠ .nop) (h : exec i s = .next t) : FlagsAgree t := by
  obtain ⟨-, rfl⟩ | ⟨v, hv, hx, -⟩ | ⟨ea, -, -, hx⟩ := exec_cases i s
  · exact absurd rfl hi
  · rw [hx] at h; cases h; exact flagsAgree_loaded hv _
  · rw [hx] at h; cases h

theorem step_keeps_flagsAgree {s t : State} (hs : FlagsAgree s) (h : step s = .next t) : FlagsAgree t := by
  obtain ⟨ha, hf⟩ | ⟨v, hv, ha, hf⟩ := step_next_accumulator h
  · exact (flagsAgree_congr ha hf).mpr hs
  · exact (flagsAgree_congr ha hf).mpr (flagsAgree_loaded hv s)

/-- A host write of another flag than N and Z leaves the agreement. -/
theorem flagsAgree_put {f : Flag} (hn : f ≠ .n) (hz : f ≠ .z) (b : Bool) {s : State} (hs : FlagsAgree s) :
    FlagsAgree (s.withFlags (s.flags.put b f)) := by
  rw [FlagsAgree, State.withFlags_flags, put_zero_of_ne hz, put_negative_of_ne hn]
  exact hs

theorem hostStep_keeps_flagsAgree {op : HostOp} {reply : Reply} {s t : State} (hs : FlagsAgree s)
    (h : hostStep op s = .ok reply t) (hop : ∀ b, op ≠ .setFlag .n b ∧ op ≠ .setFlag .z b) : FlagsAgree t := by
  obtain ⟨rfl, -⟩ | ⟨-, rfl⟩ | ⟨m, c, r, -, he⟩ | ⟨v, -, -, hv, rfl⟩ | ⟨v, -, -, -, rfl⟩ | ⟨v, -, -, -, rfl⟩ |
    ⟨f, b, rfl, rfl⟩ | ⟨a, v, m, -, -, rfl⟩ | ⟨a, v, m, -, -, rfl⟩ := hostStep_ok_cases h
  case inr.inr.inl => exact execute_keeps (fun _ _ => step_keeps_flagsAgree) hs he
  case inr.inr.inr.inl => exact flagsAgree_loaded (by omega) s
  case inr.inr.inr.inr.inr.inr.inl =>
    obtain ⟨hn, hz⟩ := hop b
    exact flagsAgree_put (fun e => hn (by rw [e])) (fun e => hz (by rw [e])) b hs
  all_goals exact hs

/-- Construction leaves Z false beside A = 0. -/
theorem not_flagsAgree_construct (m : Memory) (v : Word) : ¬FlagsAgree (State.construct m v) :=
  fun ⟨hz, _⟩ => Bool.false_ne_true hz

/-- Settles O16: every write of A is a load, which sets N and Z from A; what else a step or a host operation changes is neither
A nor N nor Z. -/
theorem nandZFollowTheAccumulator : Obligations.NandZFollowTheAccumulator :=
  ⟨fun _ _ _ => loadAccumulator_flagsAgree, fun _ _ _ => exec_load_flagsAgree, fun _ _ => step_keeps_flagsAgree,
    fun _ _ _ _ => hostStep_keeps_flagsAgree, not_flagsAgree_construct⟩

/-! ### The other six flags -/

/-- The flags other than N and Z have their values in `p`. -/
def SixFlagsAre (p : Flags) (s : State) : Prop :=
  s.flags = { p with zero := s.flags.zero, negative := s.flags.negative }

theorem sixFlagsAre_self (s : State) : SixFlagsAre s.flags s := rfl

theorem sixFlagsAre_loaded {p : Flags} {s : State} (hs : SixFlagsAre p s) (v : Nat) : SixFlagsAre p (loaded v s) := by
  rw [SixFlagsAre] at hs ⊢
  rw [loaded_flags, hs]

theorem sixFlagsAre_congr {p : Flags} {s t : State} (hf : t.flags = s.flags) : SixFlagsAre p t ↔ SixFlagsAre p s := by
  simp only [SixFlagsAre, hf]

theorem step_keeps_sixFlags {p : Flags} {s t : State} (hs : SixFlagsAre p s) (h : step s = .next t) :
    SixFlagsAre p t := by
  obtain ⟨-, hf⟩ | ⟨v, -, -, hf⟩ := step_next_accumulator h
  · exact (sixFlagsAre_congr hf).mpr hs
  · exact (sixFlagsAre_congr hf).mpr (sixFlagsAre_loaded hs v)

theorem hostStep_execute_ok {m : Int} {reply : Reply} {s t : State} (h : hostStep (.execute m) s = .ok reply t) :
    ∃ c r, execute m.toNat s = .ok c r t := by
  rcases hostStep_ok_cases h with ⟨-, ho⟩ | ⟨ho, -⟩ | ⟨_, c, r, ho, he⟩ | ⟨_, ho, -⟩ | ⟨_, ho, -⟩ | ⟨_, ho, -⟩ |
    ⟨_, _, ho, -⟩ | ⟨_, _, _, ho, -⟩ | ⟨_, _, _, ho, -⟩ <;> cases ho
  exact ⟨c, r, he⟩

/-- The induction over a session: what each of its operations that returns keeps, the session keeps, since an argument fault
changes nothing and every other end ends the session. -/
theorem session_keeps {P : State → Prop} {ops : List HostOp}
    (hop : ∀ op ∈ ops, ∀ reply s t, P s → hostStep op s = .ok reply t → P t) {reply : Reply} {s t : State} (hs : P s)
    (h : session ops s = .ok reply t) : P t := by
  induction ops generalizing s with
  | nil => cases h; exact hs
  | cons op ops ih =>
    have hrest := fun o ho => hop o (List.mem_cons_of_mem op ho)
    rw [session] at h
    cases he : hostStep op s with
    | ok r u => rw [he] at h; exact ih hrest (hop op List.mem_cons_self r s u hs he) h
    | argumentFault f u => rw [he] at h; exact ih hrest (hostStep_argumentFault he ▸ hs) h
    | sessionFault f => rw [he] at h; cases h
    | refused r => rw [he] at h; cases h

/-- Settles O15: a step writes no flag but N and Z, so no call does, so no session of calls does. -/
theorem sixFlagsSurviveExecution : Obligations.SixFlagsSurviveExecution := by
  intro s
  refine ⟨fun t h => step_keeps_sixFlags (sixFlagsAre_self s) h, fun budgets reply t h => ?calls⟩
  case calls =>
    refine session_keeps (P := SixFlagsAre s.flags) (fun op hmem r u w hu hw => ?_) (sixFlagsAre_self s) h
    obtain ⟨m, -, rfl⟩ := List.mem_map.mp hmem
    obtain ⟨c, r, he⟩ := hostStep_execute_ok hw
    exact execute_keeps (fun _ _ => step_keeps_sixFlags) hu he

/-! ### The status byte -/

theorem flagBit_shiftLeft_toNat (b : Bool) {k : Nat} (hk : k < 8) : (flagBit b <<< k).toNat = 2 ^ k * b.toNat := by
  have hlt : 2 ^ k < 2 ^ 8 := Nat.pow_lt_pow_right Nat.one_lt_two hk
  cases b
  · simp [flagBit]
  · simpa [flagBit, Nat.shiftLeft_eq] using hlt

/-- A flag put at bit `k`, below the bits that stand there already: one step of Horner's rule. -/
theorem or_flagBit_toNat {x : Byte} {k n : Nat} (hk : k < 8) (hx : x.toNat = 2 ^ (k + 1) * n) (b : Bool) :
    (x ||| flagBit b <<< k).toNat = 2 ^ k * (2 * n + b.toNat) := by
  have hb : 2 ^ k * b.toNat < 2 ^ (k + 1) := by
    rw [Nat.pow_succ]
    exact Nat.mul_lt_mul_of_pos_left (Nat.lt_succ_of_le b.toNat_le) (Nat.two_pow_pos k)
  rw [BitVec.toNat_or, hx, flagBit_shiftLeft_toNat b hk, ← Nat.two_pow_add_eq_or_of_lt hb, Nat.pow_succ, Nat.mul_assoc,
    ← Nat.mul_add]

/-- The layout of R99, by the flags from bit 7 down. -/
theorem compose_toNat (p : Flags) : (compose p).toNat =
    128 * p.negative.toNat + 64 * p.overflow.toNat + 32 * p.expansion.toNat + 16 * p.breakCommand.toNat +
      8 * p.decimal.toNat + 4 * p.interruptDisable.toNat + 2 * p.zero.toNat + p.carry.toNat := by
  have h₇ := flagBit_shiftLeft_toNat p.negative (k := 7) (by decide)
  have h₆ := or_flagBit_toNat (by decide) h₇ p.overflow
  have h₅ := or_flagBit_toNat (by decide) h₆ p.expansion
  have h₄ := or_flagBit_toNat (by decide) h₅ p.breakCommand
  have h₃ := or_flagBit_toNat (by decide) h₄ p.decimal
  have h₂ := or_flagBit_toNat (by decide) h₃ p.interruptDisable
  have h₁ := or_flagBit_toNat (by decide) h₂ p.zero
  have h₀ := or_flagBit_toNat (by decide) h₁ p.carry
  rw [BitVec.shiftLeft_zero] at h₀
  rw [compose, h₀]
  omega

/-- Two outcomes are one fault, or two next states that differ in the flag fields only. -/
def SameButFlags (o o' : Host.Outcome State Fault Refusal) : Prop :=
  (∃ f, o = .fault f ∧ o' = .fault f) ∨ ∃ t q, o = .next t ∧ o' = .next { t with flags := q }

/-- A load through a data word: neither the word nor its address comes from the flags. -/
theorem loadStored_sameButFlags (ea cost : Nat) (s : State) (p : Flags) :
    SameButFlags (loadResolved (resolveStored ea cost s)) (loadResolved (resolveStored ea cost { s with flags := p })) := by
  rw [loadStored_eq, loadStored_eq]
  by_cases h : ea ≤ 0xFFFE
  · rw [if_pos h, if_pos h]; exact .inr ⟨_, _, rfl, rfl⟩
  · rw [if_neg h, if_neg h]; exact .inl ⟨_, rfl, rfl⟩

/-- No handler reads the flags. -/
theorem exec_sameButFlags (i : Instr) (s : State) (p : Flags) :
    SameButFlags (exec i s) (exec i { s with flags := p }) := by
  cases i with
  | nop => exact .inr ⟨_, p, rfl, rfl⟩
  | ldaImm v => exact .inr ⟨_, _, exec_ldaImm_eq v s, exec_ldaImm_eq v _⟩
  | ldaAbs w => exact loadStored_sameButFlags _ _ s p
  | ldaAbsX w => exact loadStored_sameButFlags _ _ s p
  | ldaAbsY w => exact loadStored_sameButFlags _ _ s p
  | ldaZp v => exact loadStored_sameButFlags _ _ s p

/-- Settles O11: the layout by Horner's rule, `compose` as an observation of the host, and that no handler reads the flags. -/
theorem statusByteLayoutAndUnread : Obligations.StatusByteLayoutAndUnread := by
  refine ⟨compose_toNat, fun _ => rfl, fun i s p => ?unread⟩
  case unread =>
    obtain ⟨f, hf, hf'⟩ | ⟨t, q, ht, ht'⟩ := exec_sameButFlags i s p
    · rw [hf, hf']
      exact ⟨fun _ => Iff.rfl, nofun⟩
    · rw [ht, ht']
      exact ⟨fun _ => ⟨nofun, nofun⟩, fun u hu => ⟨q, by cases hu; rfl⟩⟩

end Sys2Proof.Machine
end

section
/-! PROOFS. The accessors of 45_host_interface.md (R114). -/

namespace Sys2Proof.Machine

open Sys2Proof.Safety

/-! ### The register getters -/

section
variable (s : State)

@[simp] theorem hostStep_getA : hostStep .getA s = .ok (.word s.a) s := rfl
@[simp] theorem hostStep_getX : hostStep .getX s = .ok (.word s.x) s := rfl
@[simp] theorem hostStep_getY : hostStep .getY s = .ok (.word s.y) s := rfl

end

/-- The A getter after a word load returns the whole of the stored word. -/
theorem getA_after_ldaAbs {w : Word} {s : State} (hw : w.toNat ≤ 0xFFFE) :
    ∃ (v : Word) (t : State), exec (.ldaAbs w) s = .next t ∧ hostStep .getA t = .ok (.word v) t ∧
      v.toNat = storedWord s.mem w.toNat := by
  have hv := storedWord_le s.mem w.toNat
  refine ⟨_, _, by rw [exec_ldaAbs_eq, if_pos hw], hostStep_getA _, ?value⟩
  case value => rw [loaded_a, BitVec.toNat_ofNat, Nat.mod_eq_of_lt (by omega)]

/-- The reset state over an image whose word at 0x0300 does not fit a byte. -/
def wideWordState : State := State.reset.withMem [(0x0300, 0x34#8), (0x0301, 0x12#8)]

theorem storedWord_wideWordState : storedWord wideWordState.mem (0x0300#16).toNat = 0x1234 := by decide

/-- Settles O51: each getter by its rule, and an absolute load of the word 0x1234 stored at 0x0300. -/
theorem gettersReturnTheRegisters : Obligations.GettersReturnTheRegisters := by
  refine ⟨fun s => ⟨hostStep_getA s, hostStep_getX s, hostStep_getY s⟩, ?wide⟩
  case wide =>
    obtain ⟨v, t, hexec, hget, hv⟩ := getA_after_ldaAbs (w := 0x0300#16) (s := wideWordState) (by decide)
    rw [storedWord_wideWordState] at hv
    exact ⟨_, v, _, t, hexec, hget, by omega⟩

end Sys2Proof.Machine
end

section
/-! PROOFS. Construction and `reset()` (70_reset_and_hazards.md, R146 and R147). -/

namespace Sys2Proof.Machine

/-! ### Construction -/

/-- Every 16-bit vector is an argument of its type, so construction with one is never refused. -/
@[simp] theorem vectorArgument_toNat (v : Word) : vectorArgument (v.toNat : Int) = true := by
  have hv := v.isLt
  exact decide_eq_true ⟨by omega, by omega⟩

/-- The request with a 16-bit vector answers the core built from that very vector. -/
@[simp] theorem constructCore_toNat (m : Memory) (v : Word) :
    constructCore m (v.toNat : Int) = .next (State.construct m v) := by
  rw [constructCore, if_pos (vectorArgument_toNat v), Int.toNat_natCast, BitVec.ofNat_toNat, BitVec.setWidth_eq]

/-- Settles O48: the request answers `State.construct`, whose fields are the values of R146. -/
theorem constructionValues : Obligations.ConstructionValues := by
  refine ⟨fun m v => ?fields, fun _ => rfl⟩
  case fields => rw [constructCore_toNat, State.construct, Flags.clear]

/-! ### Reset -/

/-- `reset()` takes no argument, so it is never refused, and it always returns. -/
@[simp] theorem hostStep_reset (s : State) : hostStep .reset s = .ok .nothing (s.withPc s.resetVector) := rfl

/-- A second `reset()` finds PC at the vector already: the vector is not what `reset()` writes. -/
theorem hostStep_reset_withPc_resetVector (s : State) :
    hostStep .reset (s.withPc s.resetVector) = .ok .nothing (s.withPc s.resetVector) := by
  rw [hostStep_reset, State.withPc_resetVector]
  rfl

/-- Settles O49: the rule of `reset()` once, and again from the state it leaves. -/
theorem resetSetsOnlyPc : Obligations.ResetSetsOnlyPc :=
  fun s => ⟨hostStep_reset s, hostStep_reset_withPc_resetVector s⟩

end Sys2Proof.Machine
end

section
/-! PROOFS. Decoding and encoding agree (30_encoding.md sections 1 to 5). -/

namespace Sys2Proof

open Sys2Proof.Safety (Recognized)

/-! ### From the bytes decoded to the encoding -/

section
variable {op : Byte} {bytes rest : List Byte} {i : Instr}

theorem decodeOperand_b8_ok {form : Byte → Instr} (h : decodeOperand op (.b8 form) bytes = .ok (i, rest)) :
    ∃ v, i = form v ∧ bytes = v :: rest := by
  match bytes with
  | [] => cases h
  | v :: _ => cases h; exact ⟨v, rfl, rfl⟩

theorem decodeOperand_w16_ok {form : Word → Instr} (h : decodeOperand op (.w16 form) bytes = .ok (i, rest)) :
    ∃ w, i = form w ∧ bytes = loByte w :: hiByte w :: rest := by
  match bytes with
  | [] => cases h
  | [_] => cases h
  | lo :: hi :: _ =>
    cases h
    exact ⟨wordOfBytes lo hi, rfl, by rw [loByte_wordOfBytes, hiByte_wordOfBytes]⟩

/-- What decodes to `i` begins with the encoding of `i`: the converse of `decode_encode`. -/
theorem eq_encode_append_of_decode (h : decode bytes = .ok (i, rest)) : bytes = encode i ++ rest := by
  match bytes with
  | [] => cases h
  | op :: tail =>
    obtain ⟨rfl, hl⟩ | ⟨rfl, hl⟩ | ⟨rfl, hl⟩ | ⟨rfl, hl⟩ | ⟨rfl, hl⟩ | ⟨rfl, hl⟩ | ⟨hr, -⟩ := lookupOpcode_cases op
    case inl => rw [decode_imp hl] at h; cases h; rfl
    case inr.inr.inr.inr.inr.inr => rw [decode_unrecognized hr] at h; cases h
    case inr.inl | inr.inr.inr.inr.inr.inl =>
      rw [decode_row hl] at h
      obtain ⟨v, rfl, rfl⟩ := decodeOperand_b8_ok h
      rfl
    all_goals
      rw [decode_row hl] at h
      obtain ⟨w, rfl, rfl⟩ := decodeOperand_w16_ok h
      rfl

end

/-- Settles O2: what decodes begins with the encoding, and the encoding decodes. -/
theorem decodeAcceptsExactlyEncodings : Obligations.DecodeAcceptsExactlyEncodings := by
  intro bytes rest i
  constructor
  · exact eq_encode_append_of_decode
  · rintro rfl
    exact decode_encode i rest

/-! ### The opcode byte -/

/-- The length of an instruction of a row, by the row's format (R58). -/
def OpcodeRow.length : OpcodeRow → Nat
  | .imp _ => 1
  | .b8 _ => 2
  | .w16 _ => 3

/-- The first byte of an encoding has a row, of the instruction's length. -/
theorem lookupOpcode_head_encode (i : Instr) :
    ((encode i).head?.bind lookupOpcode).map OpcodeRow.length = some (instrLength i) := by
  cases i <;> rfl

theorem instrLength_pos (i : Instr) : 1 ≤ instrLength i := by
  cases i <;> simp [instrLength]

theorem instrLength_le (i : Instr) : instrLength i ≤ 3 := by
  cases i <;> simp [instrLength]

/-- Settles O4: the length is that of the row of the first byte. -/
theorem opcodeByteFixesLength : Obligations.OpcodeByteFixesLength := by
  intro i j
  refine ⟨encode_length i, instrLength_pos i, instrLength_le i, fun h => ?sameLength⟩
  case sameLength =>
    have hi := lookupOpcode_head_encode i
    rw [h, lookupOpcode_head_encode j] at hi
    exact (Option.some.inj hi).symm

theorem lookupOpcode_ne_none_of_head {op : Byte} {i : Instr} (h : (encode i).head? = some op) :
    lookupOpcode op ≠ none := by
  intro hn
  have hi := lookupOpcode_head_encode i
  rw [h, Option.bind_some, hn] at hi
  cases hi

/-- Each of the six opcode bytes begins an encoding. -/
theorem exists_head_of_recognized {op : Byte} (h : Recognized op) : ∃ i, (encode i).head? = some op := by
  obtain rfl | rfl | rfl | rfl | rfl | rfl := h
  · exact ⟨.nop, rfl⟩
  · exact ⟨.ldaImm 0, rfl⟩
  · exact ⟨.ldaAbs 0, rfl⟩
  · exact ⟨.ldaAbsX 0, rfl⟩
  · exact ⟨.ldaAbsY 0, rfl⟩
  · exact ⟨.ldaZp 0, rfl⟩

theorem lookupOpcode_eq_none_iff (op : Byte) : lookupOpcode op = none ↔ ∀ i, (encode i).head? ≠ some op := by
  constructor
  · exact fun hn i hi => lookupOpcode_ne_none_of_head hi hn
  · intro h
    refine lookupOpcode_none fun hr => ?_
    obtain ⟨i, hi⟩ := exists_head_of_recognized hr
    exact h i hi

theorem lookupOpcode_eq_none_iff_not_recognized (op : Byte) : lookupOpcode op = none ↔ ¬Recognized op := by
  refine ⟨fun hn hr => ?_, lookupOpcode_none⟩
  obtain ⟨i, hi⟩ := exists_head_of_recognized hr
  exact lookupOpcode_ne_none_of_head hi hn

/-- The six opcode bytes of R59, as numbers. -/
def recognizedNumbers : Finset Nat := {0xEA, 0xA9, 0xAD, 0xBD, 0xB9, 0xA5}

theorem recognized_ofNat_iff {n : Nat} (hn : n < 256) : Recognized (BitVec.ofNat 8 n) ↔ n ∈ recognizedNumbers := by
  have hb (k : Nat) (hk : k < 256) : BitVec.ofNat 8 n = BitVec.ofNat 8 k ↔ n = k := by
    rw [← BitVec.toNat_inj, BitVec.toNat_ofNat, BitVec.toNat_ofNat, Nat.mod_eq_of_lt hn, Nat.mod_eq_of_lt hk]
  rw [Recognized, hb 0xEA (by decide), hb 0xA9 (by decide), hb 0xAD (by decide), hb 0xBD (by decide),
    hb 0xB9 (by decide), hb 0xA5 (by decide)]
  simp only [recognizedNumbers, Finset.mem_insert, Finset.mem_singleton]

theorem length_filter_range (p : Nat → Bool) (n : Nat) :
    ((List.range n).filter p).length = ((Finset.range n).filter fun k => p k = true).card := by
  rw [← Nat.count_eq_card_filter_range, Nat.count, List.countP_eq_length_filter]
  simp only [Bool.decide_eq_true]

/-- The bytes with no row are the 256 bytes without the six. -/
theorem filter_lookupOpcode_isNone :
    ((Finset.range 256).filter fun n => (lookupOpcode (BitVec.ofNat 8 n)).isNone) =
      Finset.range 256 \ recognizedNumbers := by
  ext n
  rw [Finset.mem_filter, Finset.mem_sdiff, Finset.mem_range, Option.isNone_iff_eq_none,
    lookupOpcode_eq_none_iff_not_recognized]
  exact and_congr_right fun hn => not_congr (recognized_ofNat_iff hn)

theorem card_unrecognized : (Finset.range 256 \ recognizedNumbers).card = 250 := by
  have hsub : recognizedNumbers ⊆ Finset.range 256 := by
    simp [recognizedNumbers, Finset.insert_subset_iff]
  rw [Finset.card_sdiff_of_subset hsub, Finset.card_range]
  rfl

/-- Settles O3: a byte has a row exactly when it begins an encoding, and 256 bytes less the six have none. -/
theorem unrecognizedBytesBeginNoEncoding : Obligations.UnrecognizedBytesBeginNoEncoding := by
  refine ⟨lookupOpcode_eq_none_iff, ?count⟩
  case count => rw [length_filter_range, filter_lookupOpcode_isNone, card_unrecognized]

end Sys2Proof
end

section
/-! PROOFS. The bus writes of 20_memory.md section 2, and the canonical form of a memory image. -/

namespace Sys2Proof.Machine

/-! ### The writes -/

/-- A byte write that is accepted: the byte is stored and every other one kept. -/
theorem writeByte_stores {m : Memory} (h : m.wf = true) {a v : Nat} (ha : a ≤ 0xFFFF) (hv : v ≤ 0xFF) :
    ∃ m', writeByte m a v = .ok m' ∧ (m'.lookup a).toNat = v ∧ ∀ b, b ≠ a → m'.lookup b = m.lookup b := by
  refine ⟨_, by rw [writeByte_eq, if_pos ha, if_pos hv], ?at_, fun b hb => ?elsewhere⟩
  case at_ => rw [lookup_store h, if_pos rfl, BitVec.toNat_ofNat, Nat.mod_eq_of_lt (by omega)]
  case elsewhere => rw [lookup_store h, if_neg hb]

/-- Settles O7: an accepted write is a store; the bounds check comes before the value check. -/
theorem writeByteContract : Obligations.WriteByteContract := by
  intro m addr value h
  refine ⟨fun ha hv => writeByte_stores h (by omega) hv, fun ha hv => ?tooWide, fun ha => ?outside⟩
  case tooWide => rw [writeByte_eq, if_pos (by omega), if_neg (by omega)]
  case outside => rw [writeByte_eq, if_neg (by omega)]

/-- A word write that is accepted: its two bytes are stored, the low one lower, and every other one kept. -/
theorem writeWord_stores {m : Memory} (h : m.wf = true) {a v : Nat} (ha : a ≤ 0xFFFE) (hv : v ≤ 0xFFFF) :
    ∃ m', writeWord m a v = .ok m' ∧ (m'.lookup a).toNat = v % 256 ∧ (m'.lookup (a + 1)).toNat = v / 256 ∧
      ∀ b, b ≠ a → b ≠ a + 1 → m'.lookup b = m.lookup b := by
  have hs : a < Config.memSize := Nat.lt_of_le_of_lt ha (by decide)
  have h₁ := store_keeps_wf h hs (BitVec.ofNat 8 (v % 0x100))
  refine ⟨_, by rw [writeWord_eq, if_pos ha, if_pos hv], ?low, ?high, fun b hb hb' => ?elsewhere⟩
  case low => rw [lookup_store h₁, if_neg (by omega), lookup_store h, if_pos rfl, BitVec.toNat_ofNat]; omega
  case high => rw [lookup_store h₁, if_pos rfl, BitVec.toNat_ofNat, Nat.mod_eq_of_lt (by omega)]
  case elsewhere => rw [lookup_store h₁, if_neg hb', lookup_store h, if_neg hb]

/-- Settles O8: an accepted write is two stores; the bounds check comes before the value check. -/
theorem writeWordContract : Obligations.WriteWordContract := by
  intro m addr value h
  refine ⟨fun ha hv => writeWord_stores h (by omega) hv, fun ha hv => ?tooWide, fun ha => ?outside⟩
  case tooWide => rw [writeWord_eq, if_pos (by omega), if_neg (by omega)]
  case outside => rw [writeWord_eq, if_neg (by omega)]

/-! ### One image, one list -/

/-- Two images that read alike inside the space. -/
def ReadAlike (m m' : Memory) : Prop := ∀ a, a < 65536 → m.lookup a = m'.lookup a

theorem ReadAlike.symm {m m' : Memory} (h : ReadAlike m m') : ReadAlike m' m := fun a ha => (h a ha).symm

theorem wfFrom_cons {lo k : Nat} {v : Byte} {m : Memory} (h : Memory.wfFrom lo ((k, v) :: m) = true) :
    lo ≤ k ∧ k < 65536 ∧ v ≠ Config.unlistedByte ∧ Memory.wfFrom (k + 1) m = true := by
  simp only [Memory.wfFrom, Bool.and_eq_true, decide_eq_true_eq] at h
  obtain ⟨⟨⟨hlo, hk⟩, hv⟩, hm⟩ := h
  exact ⟨hlo, hk, hv, hm⟩

/-- The lower bound of a canonical list may be its first address. -/
theorem wfFrom_head {lo k : Nat} {v : Byte} {m : Memory} (h : Memory.wfFrom lo ((k, v) :: m) = true) :
    Memory.wfFrom k ((k, v) :: m) = true := by
  simp only [Memory.wfFrom, Bool.and_eq_true, decide_eq_true_eq] at h ⊢
  exact ⟨⟨⟨Nat.le_refl k, h.1.1.2⟩, h.1.2⟩, h.2⟩

@[simp] theorem lookup_cons_same (k : Nat) (v : Byte) (m : Memory) : Memory.lookup ((k, v) :: m) k = v := if_pos rfl

theorem lookup_cons_ne {k a : Nat} (h : k ≠ a) (v : Byte) (m : Memory) :
    Memory.lookup ((k, v) :: m) a = m.lookup a := if_neg h

/-- The first address an image lists is not below those another image that reads alike lists: its byte is not the unlisted
one. -/
theorem ReadAlike.le_head {lo lo' k : Nat} {v : Byte} {m m' : Memory} (hr : ReadAlike ((k, v) :: m) m')
    (h : Memory.wfFrom lo ((k, v) :: m) = true) (h' : Memory.wfFrom lo' m' = true) : lo' ≤ k := by
  obtain ⟨-, hk, hv, -⟩ := wfFrom_cons h
  by_contra hlt
  have hread := hr k hk
  rw [lookup_cons_same, lookup_below h' (by omega)] at hread
  exact hv hread

/-- An image that reads as one that lists nothing lists nothing. -/
theorem not_readAlike_nil {lo k : Nat} {v : Byte} {m : Memory} (h : Memory.wfFrom lo ((k, v) :: m) = true) :
    ¬ReadAlike ((k, v) :: m) [] := fun hr => by
  have hle := hr.le_head h (lo' := k + 1) rfl
  omega

/-- With equal heads the tails read alike: at the head's address neither tail lists anything. -/
theorem ReadAlike.tail {k : Nat} {v : Byte} {m m' : Memory} (hr : ReadAlike ((k, v) :: m) ((k, v) :: m'))
    (h : Memory.wfFrom (k + 1) m = true) (h' : Memory.wfFrom (k + 1) m' = true) : ReadAlike m m' := by
  intro a ha
  by_cases hk : k = a
  · subst hk
    rw [lookup_below h (Nat.lt_succ_self k), lookup_below h' (Nat.lt_succ_self k)]
  · have hread := hr a ha
    rwa [lookup_cons_ne hk, lookup_cons_ne hk] at hread

theorem ReadAlike.eq {lo lo' : Nat} {m m' : Memory} (hr : ReadAlike m m') (h : Memory.wfFrom lo m = true)
    (h' : Memory.wfFrom lo' m' = true) : m = m' := by
  induction m generalizing lo lo' m' with
  | nil =>
    cases m' with
    | nil => rfl
    | cons c m' => exact absurd hr.symm (not_readAlike_nil h')
  | cons c m ih =>
    cases m' with
    | nil => exact absurd hr (not_readAlike_nil h)
    | cons c' m' =>
      obtain ⟨k, v⟩ := c
      obtain ⟨k', v'⟩ := c'
      obtain ⟨-, hk, hv, hm⟩ := wfFrom_cons h
      obtain ⟨-, -, hv', hm'⟩ := wfFrom_cons h'
      have hle : k' ≤ k := hr.le_head h (wfFrom_head h')
      have hge : k ≤ k' := hr.symm.le_head h' (wfFrom_head h)
      obtain rfl : k = k' := Nat.le_antisymm hge hle
      obtain rfl : v = v' := by simpa using hr k hk
      rw [ih (hr.tail hm hm') hm hm']

/-- Settles O10: entry by entry, since no listed byte reads as an unlisted one. -/
theorem canonicalImagesAreDeterminedByReads : Obligations.CanonicalImagesAreDeterminedByReads :=
  fun _ _ h h' hr => ReadAlike.eq hr h h'

end Sys2Proof.Machine
end

section
/-! PROOFS. The handlers (42_flags_alu.md section 4, 43_nop.md, 44_lda.md): the flags of a load, completion, faults and frame. -/

namespace Sys2Proof.Machine

open Sys2Proof.Safety

/-! ### The flags of a load -/

theorem loadAccumulator_ok {v : Nat} {s t : State} (h : loadAccumulator v s = .ok t) : v ≤ 0xFFFF ∧ t = loaded v s := by
  rw [loadAccumulator_eq] at h
  split at h
  · next hv => cases h; exact ⟨hv, rfl⟩
  · cases h

/-- Settles O13: Z and N of the value loaded, in each class. -/
theorem loadNeverSetsBothNandZ : Obligations.LoadNeverSetsBothNandZ := by
  intro v s t h
  obtain ⟨hv, rfl⟩ := loadAccumulator_ok h
  simp only [loaded_flags, decide_eq_true_eq, decide_eq_false_iff_not]
  omega

/-! ### What a handler does -/

/-- The number a handler loads, if it loads one: an immediate operand, or the word at its data address. -/
def loadValue : Instr → State → Option Nat
  | .nop, _ => none
  | .ldaImm v, _ => some v.toNat
  | i, s => (dataAddress i s).map (storedWord s.mem)

/-- The state with `c` more cycles and the number loaded, if there is one. -/
def handled (v : Option Nat) (c : Nat) (s : State) : State := v.elim id loaded { s with cyc := s.cyc + c }

theorem dataInside_or_outside (i : Instr) (s : State) :
    DataInside i s ∨ ∃ ea, dataAddress i s = some ea ∧ 0xFFFE < ea := by
  cases h : dataAddress i s with
  | none => exact .inl fun ea he => by rw [h] at he; cases he
  | some ea =>
    by_cases hea : ea ≤ 0xFFFE
    · exact .inl fun _ he => by rw [h] at he; cases he; exact hea
    · exact .inr ⟨ea, rfl, by omega⟩

/-- A handler whose data word is inside the space completes. -/
theorem exec_inside {i : Instr} {s : State} (h : DataInside i s) :
    exec i s = .next (handled (loadValue i s) (totalCycles i s - instrLength i) s) := by
  have hc (n : Nat) : 4 + n - 3 = 1 + n := by omega
  cases i with
  | nop => exact exec_nop_eq s
  | ldaImm v => exact exec_ldaImm_eq v s
  | ldaAbs w => exact (exec_ldaAbs_eq w s).trans (if_pos (h _ rfl))
  | ldaAbsX w => rw [exec_ldaAbsX_eq, if_pos (h _ rfl), totalCycles, instrLength, hc]; rfl
  | ldaAbsY w => rw [exec_ldaAbsY_eq, if_pos (h _ rfl), totalCycles, instrLength, hc]; rfl
  | ldaZp v => exact exec_ldaZp_eq v s

/-- A handler whose data word is not inside the space takes the bus's fault. -/
theorem exec_outside {i : Instr} {s : State} {ea : Nat} (hd : dataAddress i s = some ea) (h : 0xFFFE < ea) :
    exec i s = .fault (.boundsFault ea 2) := by
  obtain ⟨-, rfl⟩ | ⟨-, -, -, -, hin⟩ | ⟨ea', hd', -, hx⟩ := exec_cases i s
  · cases hd
  · exact absurd (hin ea hd) (by omega)
  · rw [hx, Option.some.inj (hd.symm.trans hd')]

/-- Settles O31: a handler completes or takes its data word's fault, as its data word is inside the space or not. -/
theorem dataReadFaults : Obligations.DataReadFaults := by
  intro i s f
  constructor
  · intro hf
    obtain hin | ⟨ea, hd, hea⟩ := dataInside_or_outside i s
    · rw [exec_inside hin] at hf; cases hf
    · rw [exec_outside hd hea] at hf; cases hf; exact ⟨ea, hd, hea, rfl⟩
  · rintro ⟨ea, hd, hea, rfl⟩
    exact exec_outside hd hea

/-! ### Completion -/

/-- Settles O18, by the rule of NOP. -/
theorem nopCompletes : Obligations.NopCompletes := exec_nop_eq

/-- Settles O19, by the rule of LDA immediate. -/
theorem ldaImmediateCompletes : Obligations.LdaImmediateCompletes := exec_ldaImm_eq

/-- Settles O20: the rule of each word load, below the bound. -/
theorem wordLoadsComplete : Obligations.WordLoadsComplete := by
  intro w z s
  refine ⟨fun h => ?abs, fun h => ?absX, fun h => ?absY, exec_ldaZp_eq z s⟩
  case abs => rw [exec_ldaAbs_eq, if_pos h]
  case absX => rw [exec_ldaAbsX_eq, if_pos h, Nat.add_assoc]
  case absY => rw [exec_ldaAbsY_eq, if_pos h, Nat.add_assoc]

/-! ### Frame -/

/-- Settles O21: a handler adds cycles and loads A, and NOP's does not load. -/
theorem handlerFrame : Obligations.HandlerFrame := by
  intro i s t h
  obtain ⟨hx, -⟩ | ⟨v, -, hx, hne, -⟩ | ⟨ea, -, -, hx⟩ := exec_cases i s <;> rw [hx] at h <;> cases h
  · exact ⟨rfl, rfl, rfl, rfl, rfl, fun _ => rfl, fun _ => ⟨rfl, rfl⟩⟩
  · exact ⟨rfl, rfl, rfl, rfl, rfl, fun _ => rfl, fun hi => absurd hi hne⟩

/-- A load through a data word that completes. -/
theorem loadStored_next {ea cost : Nat} {s t : State} (h : loadResolved (resolveStored ea cost s) = .next t) :
    ea ≤ 0xFFFE ∧ t = loaded (storedWord s.mem ea) { s with cyc := s.cyc + cost } := by
  rw [loadStored_eq] at h
  split at h
  · next hea => cases h; exact ⟨hea, rfl⟩
  · cases h

/-- Settles O22: neither the address nor the cost of an indexed load comes from the other index register. -/
theorem eachIndexedLoadReadsItsOwnRegister : Obligations.EachIndexedLoadReadsItsOwnRegister := by
  intro w v s t
  constructor
  · intro h
    obtain ⟨hea, rfl⟩ := loadStored_next h
    exact (loadStored_eq _ _ { s with x := v }).trans (if_pos hea)
  · intro h
    obtain ⟨hea, rfl⟩ := loadStored_next h
    exact (loadStored_eq _ _ { s with y := v }).trans (if_pos hea)

/-! ### What a handler depends on -/

section
variable {i : Instr} {s s' : State} (hx : s'.x = s.x) (hy : s'.y = s.y)
include hx hy

theorem dataAddress_congr : dataAddress i s' = dataAddress i s := by
  cases i <;> simp only [dataAddress, hx, hy]

theorem totalCycles_congr : totalCycles i s' = totalCycles i s := by
  cases i <;> simp only [totalCycles, hx, hy]

variable (hm : ∀ ea, dataAddress i s = some ea → storedWord s'.mem ea = storedWord s.mem ea)
include hm

theorem loadValue_congr : loadValue i s' = loadValue i s := by
  have hmap : (dataAddress i s').map (storedWord s'.mem) = (dataAddress i s).map (storedWord s.mem) := by
    rw [dataAddress_congr hx hy]
    exact Option.map_congr hm
  cases i with
  | nop => rfl
  | ldaImm v => rfl
  | ldaAbs w => exact hmap
  | ldaAbsX w => exact hmap
  | ldaAbsY w => exact hmap
  | ldaZp v => exact hmap

/-- From states with the same index registers and the same data word a handler ends in the same fault, or completes alike. -/
theorem exec_congr : (∃ f, exec i s = .fault f ∧ exec i s' = .fault f) ∨
    ∃ v c, exec i s = .next (handled v c s) ∧ exec i s' = .next (handled v c s') := by
  obtain hin | ⟨ea, hd, hea⟩ := dataInside_or_outside i s
  · have hin' : DataInside i s' := fun ea he => hin ea (dataAddress_congr hx hy ▸ he)
    refine .inr ⟨_, _, exec_inside hin, ?_⟩
    rw [exec_inside hin', loadValue_congr hx hy hm, totalCycles_congr hx hy]
  · exact .inl ⟨_, exec_outside hd hea, exec_outside ((dataAddress_congr hx hy).trans hd) hea⟩

end

end Sys2Proof.Machine
end

section
/-! PROOFS. Whole iterations (40_fetch_dispatch.md, 41_addressing.md section 4, 60_exceptions.md section 4). -/

namespace Sys2Proof.Machine

open Sys2Proof.Safety

/-! ### The step by the row of the opcode byte -/

@[simp] theorem handlerEnd_outcome (o : Host.Outcome State Fault Refusal) : (handlerEnd o).outcome = o := by
  cases o <;> rfl

/-- The step past the fetches of an instruction that stands at PC. -/
theorem step_of_standsAtPc {i : Instr} {s : State} (h : StandsAtPc i s) (hf : FetchInside i s) :
    step s = exec i (movedOn (instrLength i) (instrLength i) s) := by
  rw [step, iteration_of_standsAtPc h hf, handlerEnd_outcome]

theorem step_of_faulted {s : State} {f : Fault} (h : iteration s = .faulted f) : step s = .fault f := by
  rw [step, h, IterationEnd.outcome]

theorem step_of_continues {s t : State} (h : iteration s = .continues t) : step s = .next t := by
  rw [step, h, IterationEnd.outcome]

section
variable {s : State} {op : Byte}

theorem step_b8 {form : Byte → Instr} (hl : lookupOpcode op = some (.b8 form)) (ho : s.mem.lookup s.pc.toNat = op)
    (hp : s.pc.toNat + 2 ≤ 0xFFFF) : step s = exec (form (s.mem.lookup (s.pc.toNat + 1))) (movedOn 2 2 s) := by
  rw [step, iteration_b8 (ho ▸ hl) hp, handlerEnd_outcome]

/-- The operand word after the opcode byte. -/
def operandWord (s : State) : Word :=
  wordOfBytes (s.mem.lookup (s.pc.toNat + 1)) (s.mem.lookup (s.pc.toNat + 2))

theorem operandWord_toNat (s : State) : (operandWord s).toNat = storedWord s.mem (s.pc.toNat + 1) :=
  wordOfBytes_toNat _ _

theorem step_w16 {form : Word → Instr} (hl : lookupOpcode op = some (.w16 form)) (ho : s.mem.lookup s.pc.toNat = op)
    (hp : s.pc.toNat + 3 ≤ 0xFFFF) : step s = exec (form (operandWord s)) (movedOn 3 3 s) := by
  rw [step, iteration_w16 (ho ▸ hl) hp, handlerEnd_outcome, operandWord]

end

/-! ### Whole iterations of each instruction -/

/-- Settles O24: the fetch and the handler take a cycle each. -/
theorem nopIteration : Obligations.NopIteration := by
  intro s hp ho
  rw [step, iteration_imp (ho ▸ lookupOpcode_EA) hp, handlerEnd_outcome, exec_nop_eq]
  rfl

/-- Settles O25: the two fetches, and a handler that adds no cycle. -/
theorem ldaImmediateIteration : Obligations.LdaImmediateIteration := by
  intro s hp ho
  rw [step_b8 lookupOpcode_A9 ho hp, exec_ldaImm_eq]

/-- Settles O26: the two fetches and the read of the word at the operand byte. -/
theorem ldaZeroPageIteration : Obligations.LdaZeroPageIteration := by
  intro s hp ho
  rw [step_b8 lookupOpcode_A5 ho hp, exec_ldaZp_eq]
  rfl

/-- Settles O27: the three bytes and the read of the word at the operand word. -/
theorem ldaAbsoluteIteration : Obligations.LdaAbsoluteIteration := by
  intro s hp ho hea
  rw [step_w16 lookupOpcode_AD ho hp, exec_ldaAbs_eq, operandWord_toNat, if_pos hea]
  rfl

/-- The fetches and the indexed read as one move on. -/
theorem movedOn_addPenalty (s : State) (p : Nat) :
    { movedOn 3 3 s with cyc := (movedOn 3 3 s).cyc + (1 + p) } = movedOn 3 (4 + p) s := by
  simp only [movedOn, Nat.add_assoc, ← Nat.add_assoc 3 1 p, Nat.reduceAdd]

/-- Settles O28: the three bytes and the read of the word at the indexed address, with its penalty. -/
theorem ldaIndexedIterations : Obligations.LdaIndexedIterations := by
  rintro s base rfl hp
  constructor
  · intro ho hea
    rw [step_w16 lookupOpcode_BD ho hp, exec_ldaAbsX_eq, movedOn_addPenalty, movedOn_x, movedOn_mem, operandWord_toNat,
      if_pos hea]
  · intro ho hea
    rw [step_w16 lookupOpcode_B9 ho hp, exec_ldaAbsY_eq, movedOn_addPenalty, movedOn_y, movedOn_mem, operandWord_toNat,
      if_pos hea]

/-- Settles O29: the halt takes its fetch's cycle back, and is a next state. -/
theorem unrecognizedOpcodeHalts : Obligations.UnrecognizedOpcodeHalts := by
  intro s hp hr
  have hi := iteration_unrecognized hp (lookupOpcode_none hr)
  exact ⟨hi, by rw [step, hi, IterationEnd.outcome]⟩

/-! ### Fetch faults -/

theorem lookupOpcode_b8_of {op : Byte} (h : op = 0xA9#8 ∨ op = 0xA5#8) : ∃ form, lookupOpcode op = some (.b8 form) := by
  obtain rfl | rfl := h
  · exact ⟨_, lookupOpcode_A9⟩
  · exact ⟨_, lookupOpcode_A5⟩

theorem lookupOpcode_w16_of {op : Byte} (h : op = 0xAD#8 ∨ op = 0xBD#8 ∨ op = 0xB9#8) :
    ∃ form, lookupOpcode op = some (.w16 form) := by
  obtain rfl | rfl | rfl := h
  · exact ⟨_, lookupOpcode_AD⟩
  · exact ⟨_, lookupOpcode_BD⟩
  · exact ⟨_, lookupOpcode_B9⟩

/-- Settles O30: the fault of the opcode fetch, or of the operand fetch by the row's format. -/
theorem fetchFaults : Obligations.FetchFaults := by
  intro s
  refine ⟨fun hp => step_of_faulted (iteration_at_top hp), fun hp ho => ?byteAtFFFE, fun hp ho => ?wordAtFFFE,
    fun hp ho => ?wordAtFFFD⟩
  case byteAtFFFE =>
    obtain ⟨form, hl⟩ := lookupOpcode_b8_of ho
    exact step_of_faulted (iteration_b8_at_top (hp ▸ hl) hp)
  case wordAtFFFE =>
    obtain ⟨form, hl⟩ := lookupOpcode_w16_of ho
    rw [step_of_faulted (iteration_w16_at_top (hp ▸ hl) (by omega) (by omega)), if_neg (by omega)]
  case wordAtFFFD =>
    obtain ⟨form, hl⟩ := lookupOpcode_w16_of ho
    rw [step_of_faulted (iteration_w16_at_top (hp ▸ hl) (by omega) (by omega)), if_pos hp]

/-! ### The instruction that stands at PC -/

theorem Memory.bytesAt_take (m : Memory) (a : Nat) {n k : Nat} (h : n ≤ k) :
    (m.bytesAt a k).take n = m.bytesAt a n := by
  induction n generalizing a k with
  | zero => rfl
  | succ n ih =>
    obtain ⟨k, rfl⟩ : ∃ j, k = j + 1 := ⟨k - 1, by omega⟩
    simp only [Memory.bytesAt, List.take_succ_cons, ih (a + 1) (Nat.le_of_succ_le_succ h)]

/-- Settles O23: the bytes that decode to an instruction begin with its encoding, so it stands at PC. -/
theorem stepRunsTheDecodedInstruction : Obligations.StepRunsTheDecodedInstruction := by
  intro i rest s hd _ hf
  have hstands : StandsAtPc i s := by
    rw [StandsAtPc, ← Memory.bytesAt_take s.mem _ (instrLength_le i), eq_encode_append_of_decode hd, ← encode_length i,
      List.take_left]
  exact step_of_standsAtPc hstands hf

theorem recognized_of_standsAtPc {i : Instr} {s : State} (h : StandsAtPc i s) :
    Recognized (s.mem.lookup s.pc.toNat) := by
  by_contra hr
  obtain ⟨_, hl, -⟩ | ⟨_, hl, -⟩ | ⟨_, hl, -⟩ := standsAtPc_row h <;> rw [lookupOpcode_none hr] at hl <;> cases hl

/-- Settles O32: a step that is safe continued, for an instruction is at PC, and what continued was inside; what is inside
runs. -/
theorem stepIsSafeExactlyWhenInside : Obligations.StepIsSafeExactlyWhenInside := by
  intro i s hi
  constructor
  · rintro ⟨t, ht⟩
    obtain hc | ⟨-, hr, -⟩ := step_next_cases ht
    · obtain ⟨j, hj, hf, hd, -⟩ := continues_cases hc
      rw [standsAtPc_unique hi hj]
      exact ⟨hf, hd⟩
    · exact absurd (recognized_of_standsAtPc hi) hr
  · rintro ⟨hf, hd⟩
    have hd' : DataInside i (movedOn (instrLength i) (instrLength i) s) :=
      fun ea he => hd ea ((dataAddress_congr (i := i) (s := s) rfl rfl).symm.trans he)
    exact ⟨_, (step_of_standsAtPc hi hf).trans (exec_inside hd')⟩

/-- `t` is `u` but for A and the flags, which a load writes. -/
structure SameButLoad (u t : State) : Prop where
  pc : t.pc = u.pc
  x : t.x = u.x
  y : t.y = u.y
  cyc : t.cyc = u.cyc
  resetVector : t.resetVector = u.resetVector
  mem : t.mem = u.mem

theorem SameButLoad.refl (u : State) : SameButLoad u u := ⟨rfl, rfl, rfl, rfl, rfl, rfl⟩

theorem sameButLoad_loaded (v : Nat) (u : State) : SameButLoad u (loaded v u) := ⟨rfl, rfl, rfl, rfl, rfl, rfl⟩

/-- An iteration that continues moves on past the instruction at PC, and may load A. -/
theorem continues_movedOn {s t : State} (h : iteration s = .continues t) :
    ∃ i, StandsAtPc i s ∧ FetchInside i s ∧ SameButLoad (movedOn (instrLength i) (totalCycles i s) s) t := by
  obtain ⟨i, hi, hf, -, ⟨rfl, rfl⟩ | ⟨-, v, -, rfl⟩⟩ := continues_cases h
  · exact ⟨.nop, hi, hf, .refl _⟩
  · exact ⟨i, hi, hf, sameButLoad_loaded v _⟩

/-- Settles O34: the instruction that continued, and its length and cost. -/
theorem continuingIterationCostAndFlow : Obligations.ContinuingIterationCostAndFlow := by
  intro s t h
  obtain ⟨i, hi, hf, ht⟩ := continues_movedOn h
  exact ⟨i, hi, by rw [ht.pc, movedOn_pc_toNat hf], ht.cyc, totalCycles_bounds i s⟩

/-! ### The frame and the invariant of a step -/

/-- A step moves PC on, never past 0xFFFF, and CYC, and may load A. -/
theorem step_movedOn {s t : State} (h : step s = .next t) :
    ∃ n c, 1 ≤ n ∧ s.pc.toNat + n ≤ 0xFFFF ∧ SameButLoad (movedOn n c s) t := by
  obtain hc | ⟨hp, -, rfl⟩ := step_next_cases h
  · obtain ⟨i, -, hf, ht⟩ := continues_movedOn hc
    exact ⟨_, _, instrLength_pos i, hf, ht⟩
  · exact ⟨1, 0, Nat.le_refl 1, by omega, .refl _⟩

/-- Settles O35: what a step keeps, and PC and CYC moved on. -/
theorem stepFrame : Obligations.StepFrame := by
  intro s t h
  obtain ⟨n, c, hn, hp, ht⟩ := step_movedOn h
  exact ⟨ht.mem, fun a => by rw [ht.mem, movedOn_mem], ht.x, ht.y, ht.resetVector,
    by rw [ht.pc, movedOn_pc_toNat hp]; omega, by rw [ht.cyc, movedOn_cyc]; omega⟩

/-- N and Z are not both set. -/
def NotBothNandZ (p : Flags) : Prop := ¬(p.zero = true ∧ p.negative = true)

theorem notBothNandZ_loaded (v : Nat) (s : State) : NotBothNandZ (loaded v s).flags := by
  simp only [NotBothNandZ, loaded_flags, decide_eq_true_eq]
  omega

/-- Settles O36: a step writes no memory, and its flags are those before it or those of one load. -/
theorem stepKeepsInvariant : Obligations.StepKeepsInvariant := by
  rintro s t ⟨hwf, hnz⟩ h
  obtain ⟨hmem, -⟩ := stepFrame s t h
  refine ⟨hmem ▸ hwf, ?flags⟩
  case flags =>
    obtain ⟨-, hf⟩ | ⟨v, -, -, hf⟩ := step_next_accumulator h
    · exact hf ▸ hnz
    · rw [hf]; exact notBothNandZ_loaded v s

/-- Settles O37: the reset memory lists nothing, and the reset flags are clear. -/
theorem resetHasInvariant : Obligations.ResetHasInvariant := by
  refine ⟨reset_mem_wf, ?flags⟩
  case flags => rw [reset_flags]; exact fun ⟨hz, _⟩ => Bool.false_ne_true hz

end Sys2Proof.Machine
end

section
/-! PROOFS. What an iteration depends on: not the flags (10_state.md section 4), and of memory the bytes it accesses
(20_memory.md section 5). -/

namespace Sys2Proof.Machine

open Sys2Proof.Safety

/-! ### The flags -/

/-- What a handler that completes does to other flags: it keeps them, or rewrites N and Z alike. -/
theorem handled_withFlags (v : Option Nat) (c : Nat) (s : State) (p : Flags) :
    ∃ q, handled v c { s with flags := p } = { handled v c s with flags := q } ∧
      ((q = p ∧ (handled v c s).flags = s.flags) ∨
        q = { p with zero := (handled v c s).flags.zero, negative := (handled v c s).flags.negative }) := by
  cases v with
  | none => exact ⟨p, rfl, .inl ⟨rfl, rfl⟩⟩
  | some v => exact ⟨_, rfl, .inr rfl⟩

/-- The ends of an iteration from `s` and of one from `s` with the flags `p`, which go alike. -/
inductive EndsAlike (s : State) (p : Flags) : IterationEnd → IterationEnd → Prop
  | continues (t : State) (q : Flags) (hq : (q = p ∧ t.flags = s.flags) ∨
      q = { p with zero := t.flags.zero, negative := t.flags.negative }) :
      EndsAlike s p (.continues t) (.continues { t with flags := q })
  | unrecognized (op : Byte) (addr : Word) (t : State) :
      EndsAlike s p (.unrecognized op addr t) (.unrecognized op addr { t with flags := p })
  | faulted (f : Fault) : EndsAlike s p (.faulted f) (.faulted f)

/-- No fetch reads the flags, and a handler only keeps or rewrites them. -/
theorem iteration_endsAlike (s : State) (p : Flags) : EndsAlike s p (iteration s) (iteration { s with flags := p }) := by
  obtain ⟨f, hi, -, -, -, hcongr⟩ | ⟨hp, hr, hi⟩ | ⟨i, hi, hf, he⟩ := iteration_cases s
  case inl => rw [hi, hcongr { s with flags := p } rfl rfl]; exact .faulted f
  case inr.inl =>
    rw [hi, iteration_unrecognized (s := { s with flags := p }) hp (lookupOpcode_none hr)]
    exact .unrecognized _ _ _
  case inr.inr =>
    rw [he, iteration_of_standsAtPc (i := i) (s := { s with flags := p }) hi hf]
    obtain ⟨f, hx, hx'⟩ | ⟨v, c, hx, hx'⟩ := exec_congr (i := i) (s := movedOn (instrLength i) (instrLength i) s)
      (s' := movedOn (instrLength i) (instrLength i) { s with flags := p }) rfl rfl fun _ _ => rfl
    · rw [hx, hx']; exact .faulted f
    · obtain ⟨q, hq, hcase⟩ := handled_withFlags v c (movedOn (instrLength i) (instrLength i) s) p
      have hq' : handled v c (movedOn (instrLength i) (instrLength i) { s with flags := p }) = _ := hq
      rw [hx, hx', hq']
      exact .continues _ q hcase

/-- Settles O38, by the three ends. -/
theorem flagsSteerNothing : Obligations.FlagsSteerNothing := by
  intro s p
  have h := iteration_endsAlike s p
  generalize iteration s = e, iteration { s with flags := p } = e' at h ⊢
  cases h with
  | continues t q hq =>
    refine ⟨fun u hu => ?_, fun op addr u hu => (by cases hu), fun g hg => (by cases hg)⟩
    cases hu
    exact ⟨q, rfl, hq⟩
  | unrecognized op addr t =>
    refine ⟨fun u hu => (by cases hu), fun op' addr' u hu => ?_, fun g hg => (by cases hg)⟩
    cases hu
    rfl
  | faulted f => exact ⟨fun u hu => (by cases hu), fun op addr u hu => (by cases hu), fun _ hg => hg⟩

/-! ### The accesses of an iteration -/

/-- The operand access begins after the opcode byte and is as wide as the rest of the instruction. -/
theorem operandAccess_movedOn (row : OpcodeRow) {s : State} (hp : s.pc.toNat + 1 ≤ 0xFFFF) :
    operandAccess row (movedOn 1 1 s) = if row.length = 1 then [] else [⟨s.pc.toNat + 1, row.length - 1⟩] := by
  cases row with
  | imp i => rfl
  | b8 form => rw [operandAccess, movedOn_pc_toNat hp]; rfl
  | w16 form => rw [operandAccess, movedOn_pc_toNat hp]; rfl

theorem dataAccess_eq (i : Instr) (s : State) :
    dataAccess i s = ((dataAddress i s).map fun ea => Access.mk ea 2).toList := by
  cases i with
  | ldaZp v => rw [dataAccess, zext16_toNat]; rfl
  | _ => rfl

theorem fetchOperand_b8 {s : State} (form : Byte → Instr) (hp : s.pc.toNat + 2 ≤ 0xFFFF) :
    fetchOperand (.b8 form) (movedOn 1 1 s) = .ok (form (s.mem.lookup (s.pc.toNat + 1)), movedOn 2 2 s) := by
  have hpc : (movedOn 1 1 s).pc.toNat = s.pc.toNat + 1 := movedOn_pc_toNat (by omega)
  rw [fetchOperand, fetchByte_eq, hpc, if_pos (by omega), movedOn_movedOn]
  rfl

theorem fetchOperand_w16 {s : State} (form : Word → Instr) (hp : s.pc.toNat + 3 ≤ 0xFFFF) :
    fetchOperand (.w16 form) (movedOn 1 1 s) = .ok (form (operandWord s), movedOn 3 3 s) := by
  have hpc : (movedOn 1 1 s).pc.toNat = s.pc.toNat + 1 := movedOn_pc_toNat (by omega)
  rw [fetchOperand, fetchWord_eq, hpc, if_pos (by omega), movedOn_movedOn]
  rfl

/-- The iteration finds the row of `i` and fetches `i`. -/
def Fetches (i : Instr) (s : State) : Prop :=
  ∃ row, lookupOpcode (s.mem.lookup s.pc.toNat) = some row ∧ row.length = instrLength i ∧
    fetchOperand row (movedOn 1 1 s) = .ok (i, movedOn (instrLength i) (instrLength i) s)

section
variable {s : State} {op : Byte}

theorem fetches_b8 {form : Byte → Instr} {v : Byte} (hl : lookupOpcode op = some (.b8 form))
    (hn : instrLength (form v) = 2) (h : s.mem.bytesAt s.pc.toNat 2 = [op, v]) (hp : s.pc.toNat + 2 ≤ 0xFFFF) :
    Fetches (form v) s := by
  obtain ⟨ho, hrest⟩ := List.cons.inj h
  obtain ⟨hv, -⟩ := List.cons.inj hrest
  exact ⟨.b8 form, ho ▸ hl, hn.symm, by rw [hn, fetchOperand_b8 form hp, hv]⟩

theorem fetches_w16 {form : Word → Instr} {w : Word} (hl : lookupOpcode op = some (.w16 form))
    (hn : instrLength (form w) = 3) (h : s.mem.bytesAt s.pc.toNat 3 = [op, loByte w, hiByte w])
    (hp : s.pc.toNat + 3 ≤ 0xFFFF) : Fetches (form w) s := by
  obtain ⟨ho, hrest⟩ := List.cons.inj h
  obtain ⟨hlo, hrest'⟩ := List.cons.inj hrest
  obtain ⟨hhi, -⟩ := List.cons.inj hrest'
  have hw : operandWord s = w := wordOfBytes_of_bytes hlo hhi
  exact ⟨.w16 form, ho ▸ hl, hn.symm, by rw [hn, fetchOperand_w16 form hp, hw]⟩

end

theorem fetches_of_standsAtPc {i : Instr} {s : State} (h : StandsAtPc i s) (hf : FetchInside i s) : Fetches i s := by
  cases i with
  | nop =>
    obtain ⟨ho, -⟩ := List.cons.inj h
    exact ⟨.imp .nop, by rw [ho]; rfl, rfl, rfl⟩
  | ldaImm v => exact fetches_b8 lookupOpcode_A9 rfl h hf
  | ldaAbs w => exact fetches_w16 lookupOpcode_AD rfl h hf
  | ldaAbsX w => exact fetches_w16 lookupOpcode_BD rfl h hf
  | ldaAbsY w => exact fetches_w16 lookupOpcode_B9 rfl h hf
  | ldaZp v => exact fetches_b8 lookupOpcode_A5 rfl h hf

/-- The accesses of the instruction that stands at PC: opcode byte, operand, data word. -/
theorem accesses_eq {i : Instr} {s : State} (h : StandsAtPc i s) (hf : FetchInside i s) :
    accesses s = ⟨s.pc.toNat, 1⟩ ::
      ((if instrLength i = 1 then [] else [⟨s.pc.toNat + 1, instrLength i - 1⟩]) ++
        ((dataAddress i s).map fun ea => Access.mk ea 2).toList) := by
  have hpos := instrLength_pos i
  have hp : s.pc.toNat + 1 ≤ 0xFFFF := Nat.le_trans (Nat.add_le_add_left hpos _) hf
  obtain ⟨row, hl, hn, hfetch⟩ := fetches_of_standsAtPc h hf
  have hd : dataAddress i (movedOn (instrLength i) (instrLength i) s) = dataAddress i s := dataAddress_congr rfl rfl
  simp only [accesses, fetchByte_eq, if_pos (show s.pc.toNat ≤ 0xFFFE by omega), hl, hfetch]
  rw [operandAccess_movedOn row hp, hn, dataAccess_eq, hd]

/-- Settles O40: the accesses by the row fetched and the handler's data address. -/
theorem accessesByInstruction : Obligations.AccessesByInstruction := by
  intro i s h hf
  rw [accesses_eq h hf]
  cases dataAddress i s <;> rfl

/-! ### The memory -/

/-- The image holds the same bytes as `s` at every access of the iteration from `s`. -/
def SameAtAccesses (s : State) (m : Memory) : Prop :=
  ∀ access ∈ accesses s, ∀ k, k < access.width → m.lookup (access.addr + k) = s.mem.lookup (access.addr + k)

@[simp] theorem Memory.length_bytesAt (m : Memory) (a n : Nat) : (m.bytesAt a n).length = n := by
  induction n generalizing a with
  | zero => rfl
  | succ n ih => rw [Memory.bytesAt, List.length_cons, ih]

theorem Memory.getElem_bytesAt (m : Memory) (a n k : Nat) (h : k < (m.bytesAt a n).length) :
    (m.bytesAt a n)[k] = m.lookup (a + k) := by
  induction n generalizing a k with
  | zero => cases h
  | succ n ih =>
    cases k with
    | zero => rfl
    | succ k => exact (ih (a + 1) k (Nat.lt_of_succ_lt_succ h)).trans (congrArg m.lookup (by omega))

theorem Memory.bytesAt_congr {m m' : Memory} {a n : Nat} (h : ∀ k, k < n → m'.lookup (a + k) = m.lookup (a + k)) :
    m'.bytesAt a n = m.bytesAt a n := by
  refine List.ext_getElem (by simp) fun k hk _ => ?_
  rw [Memory.getElem_bytesAt, Memory.getElem_bytesAt]
  exact h k (m'.length_bytesAt a n ▸ hk)

section
variable {s : State} {m : Memory} (h : SameAtAccesses s m)
include h

theorem SameAtAccesses.opcode : m.lookup s.pc.toNat = s.mem.lookup s.pc.toNat :=
  h ⟨s.pc.toNat, 1⟩ List.mem_cons_self 0 Nat.one_pos

variable {i : Instr} (hi : StandsAtPc i s) (hf : FetchInside i s)
include hi hf

/-- The bytes of the instruction at PC are those of its opcode and operand accesses. -/
theorem SameAtAccesses.standsAtPc : StandsAtPc i { s with mem := m } := by
  rw [StandsAtPc, ← hi]
  refine Memory.bytesAt_congr fun k hk => ?_
  cases k with
  | zero => exact h.opcode
  | succ k =>
    have hmem : Access.mk (s.pc.toNat + 1) (instrLength i - 1) ∈ accesses s := by
      rw [accesses_eq hi hf, if_neg (by omega)]
      exact List.mem_cons_of_mem _ List.mem_cons_self
    have hbyte := h _ hmem k (by omega : k < instrLength i - 1)
    rwa [Nat.add_assoc, Nat.add_comm 1 k] at hbyte

theorem SameAtAccesses.dataWord {ea : Nat} (hd : dataAddress i s = some ea) : storedWord m ea = storedWord s.mem ea := by
  have hmem : Access.mk ea 2 ∈ accesses s := by
    rw [accesses_eq hi hf, hd]
    exact List.mem_cons_of_mem _ (List.mem_append_right _ List.mem_cons_self)
  have hlo : m.lookup ea = s.mem.lookup ea := h _ hmem 0 Nat.zero_lt_two
  have hhi : m.lookup (ea + 1) = s.mem.lookup (ea + 1) := h _ hmem 1 Nat.one_lt_two
  rw [storedWord, storedWord, hlo, hhi]

end

theorem handled_withMem (v : Option Nat) (c : Nat) (s : State) (m : Memory) :
    handled v c { s with mem := m } = { handled v c s with mem := m } := by
  cases v <;> rfl

/-- Settles O39: the opcode byte decides a fault or a halt; else the same instruction is fetched and handles the same data
word. -/
theorem iterationReadsOnlyItsAccesses : Obligations.IterationReadsOnlyItsAccesses := by
  intro s m (h : SameAtAccesses s m)
  obtain ⟨f, hit, -, -, -, hcongr⟩ | ⟨hp, hr, hit⟩ | ⟨i, hi, hf, hit⟩ := iteration_cases s <;> rw [hit]
  · exact hcongr _ rfl h.opcode
  · have ho := h.opcode
    rw [iteration_unrecognized (s := { s with mem := m }) hp (lookupOpcode_none (ho.symm ▸ hr))]
    simp only [ho]
    rfl
  · have hd : dataAddress i (movedOn (instrLength i) (instrLength i) s) = dataAddress i s := dataAddress_congr rfl rfl
    rw [iteration_of_standsAtPc (h.standsAtPc hi hf) hf]
    obtain ⟨f, hx, hx'⟩ | ⟨v, c, hx, hx'⟩ := exec_congr (i := i) (s := movedOn (instrLength i) (instrLength i) s)
      (s' := movedOn (instrLength i) (instrLength i) { s with mem := m }) rfl rfl
      fun ea hea => h.dataWord hi hf (hd ▸ hea)
    · rw [hx, hx']; rfl
    · rw [hx, hx']
      exact congrArg IterationEnd.continues (handled_withMem v c (movedOn (instrLength i) (instrLength i) s) m)

end Sys2Proof.Machine
end

section
/-! PROOFS. An instruction word placed at PC (30_encoding.md sections 2 and 3). -/

namespace Sys2Proof

/-- Three bytes as the number of an opcode-table word, least significant first. -/
def wordNumber (bytes : List Byte) : Nat :=
  (bytes.getD 0 0).toNat + 0x100 * (bytes.getD 1 0).toNat + 0x10000 * (bytes.getD 2 0).toNat

/-- A word whose bits fit is laid out as its bytes. -/
theorem tableBytes_wordNumber {bytes : List Byte} {nbits : Nat} (h : wordNumber bytes < 2 ^ nbits) :
    tableBytes nbits (wordNumber bytes) = [bytes.getD 0 0, bytes.getD 1 0, bytes.getD 2 0] := by
  have hb (n : Nat) (b : Byte) (hn : n % 256 = b.toNat) : BitVec.ofNat 8 n = b :=
    BitVec.eq_of_toNat_eq ((BitVec.toNat_ofNat n 8).trans hn)
  have h₀ := (bytes.getD 0 0).isLt
  have h₁ := (bytes.getD 1 0).isLt
  have h₂ := (bytes.getD 2 0).isLt
  simp only [tableBytes, Nat.mod_eq_of_lt h]
  simp only [wordNumber]
  rw [hb _ (bytes.getD 0 0) (by omega), hb _ (bytes.getD 1 0) (by omega), hb _ (bytes.getD 2 0) (by omega)]

theorem wordNumber_lt {bytes : List Byte} (h : bytes.length ≤ 3) : wordNumber bytes < 2 ^ (8 * bytes.length) := by
  match bytes with
  | [] => decide
  | [b₀] =>
    have hw : wordNumber [b₀] = b₀.toNat := by simp [wordNumber]
    rw [hw]; exact b₀.isLt
  | [b₀, b₁] =>
    have hw : wordNumber [b₀, b₁] = b₀.toNat + 0x100 * b₁.toNat := by simp [wordNumber]
    simp only [hw, List.length_cons, List.length_nil]
    omega
  | [b₀, b₁, b₂] =>
    have hw : wordNumber [b₀, b₁, b₂] = b₀.toNat + 0x100 * b₁.toNat + 0x10000 * b₂.toNat := by simp [wordNumber]
    simp only [hw, List.length_cons, List.length_nil]
    omega
  | _ :: _ :: _ :: _ :: _ => exact absurd h (by simp)

/-- The bytes of an instruction's word: its encoding, and zeros up to three bytes. -/
theorem tableBytes_encode (i : Instr) :
    tableBytes (8 * instrLength i) (wordNumber (encode i)) = encode i ++ List.replicate (3 - instrLength i) 0 := by
  have hfits : wordNumber (encode i) < 2 ^ (8 * instrLength i) := by
    have hlt := wordNumber_lt ((encode_length i).trans_le (instrLength_le i))
    rwa [encode_length] at hlt
  rw [tableBytes_wordNumber hfits]
  cases i <;> rfl

theorem decodeTableWord_encode (i : Instr) :
    decodeTableWord (8 * instrLength i) (wordNumber (encode i)) = some i := by
  rw [decodeTableWord, tableBytes_encode, decode_encode]

end Sys2Proof

namespace Sys2Proof.Machine

open Sys2Proof.Safety

/-- Bytes stored inside the space are the bytes there. -/
theorem bytesAt_storeBytes {m : Memory} (h : m.wf = true) {a n : Nat} {vs : List Byte} (hn : n ≤ vs.length)
    (ha : a + n ≤ 0x10000) : (m.storeBytes a vs).bytesAt a n = vs.take n := by
  refine List.ext_getElem (by simp [hn]) fun k hk _ => ?_
  rw [Memory.length_bytesAt] at hk
  rw [Memory.getElem_bytesAt, lookup_storeBytes_at h k (by omega) (by omega), List.getElem_take,
    List.getD_eq_getElem _ _ (by omega)]

/-- Settles O41: the word's bytes are the encoding and zeros; stored at PC, the encoding stands there. -/
theorem placedWordIsRunNext : Obligations.PlacedWordIsRunNext := by
  rintro i s w hwf hf (rfl : w = wordNumber (encode i))
  have hstands : StandsAtPc i (s.withFetchWord (8 * instrLength i) (wordNumber (encode i))) := by
    rw [StandsAtPc, State.withFetchWord, State.withMem_mem, State.withMem_pc, tableBytes_encode,
      bytesAt_storeBytes hwf (by simp [encode_length]) (Nat.le_succ_of_le hf), ← encode_length, List.take_left]
  exact ⟨decodeTableWord_encode i, hstands, step_of_standsAtPc hstands hf⟩

end Sys2Proof.Machine
end

section
/-! PROOFS. The execute call (40_fetch_dispatch.md sections 1, 3 and 6, 60_exceptions.md section 9). -/

namespace Sys2Proof.Machine

open Sys2Proof.Safety

/-! ### The loop -/

/-- Settles O42: past one iteration that continues, the fuel left still covers the budget left. -/
theorem executeSatisfiesTheLoop : Obligations.ExecuteSatisfiesTheLoop := by
  intro maxCycles s
  by_cases hs : s.cyc < maxCycles
  · rw [if_pos hs, execute, executeLoop_fuel (fuel' := maxCycles - s.cyc + 1) (Nat.le_refl _) (Nat.le_succ _),
      executeLoop, if_pos hs]
    cases hi : iteration s with
    | continues t =>
      have hcyc := continues_cyc hi
      exact executeLoop_fuel (by omega) (Nat.le_refl _)
    | unrecognized op addr t => rfl
    | faulted f => rfl
    | refused r => rfl
  · rw [if_neg hs, execute, Nat.sub_eq_zero_of_le (Nat.le_of_not_lt hs), executeLoop]

section
variable {maxCycles : Nat} {s t : State}

theorem execute_spent (h : maxCycles ≤ s.cyc) : execute maxCycles s = .ok s.cyc .budget s :=
  (executeSatisfiesTheLoop maxCycles s).trans (if_neg (Nat.not_lt_of_le h))

theorem execute_continues (h : s.cyc < maxCycles) (hi : iteration s = .continues t) :
    execute maxCycles s = execute maxCycles t := by
  rw [executeSatisfiesTheLoop maxCycles s, if_pos h, hi]

theorem execute_unrecognized {op : Byte} {addr : Word} (h : s.cyc < maxCycles)
    (hi : iteration s = .unrecognized op addr t) : execute maxCycles s = .ok t.cyc (.unrecognized op addr) t := by
  rw [executeSatisfiesTheLoop maxCycles s, if_pos h, hi]

theorem execute_faulted {f : Fault} (h : s.cyc < maxCycles) (hi : iteration s = .faulted f) :
    execute maxCycles s = .fault f := by
  rw [executeSatisfiesTheLoop maxCycles s, if_pos h, hi]

end

/-- The induction over a call: from a state whose budget is spent, and back over each iteration that continues below it. -/
theorem execute_induction {maxCycles : Nat} {P : State → Prop} (spent : ∀ s, maxCycles ≤ s.cyc → P s)
    (continues : ∀ s t, s.cyc < maxCycles → iteration s = .continues t → P t → P s)
    (unrecognized : ∀ s op addr t, s.cyc < maxCycles → iteration s = .unrecognized op addr t → P s)
    (faulted : ∀ s f, s.cyc < maxCycles → iteration s = .faulted f → P s) (s : State) : P s := by
  induction hn : maxCycles - s.cyc using Nat.strong_induction_on generalizing s with
  | _ n ih =>
    by_cases hs : s.cyc < maxCycles
    · cases hi : iteration s with
      | continues t =>
        have hcyc := continues_cyc hi
        exact continues s t hs hi (ih (maxCycles - t.cyc) (by omega) t rfl)
      | unrecognized op addr t => exact unrecognized s op addr t hs hi
      | faulted f => exact faulted s f hs hi
      | refused r => exact absurd hi (iteration_not_refused s r)
    · exact spent s (Nat.le_of_not_lt hs)

/-! ### Ends of a call -/

/-- Settles O43: the loop's test fails at once. -/
theorem spentBudgetDoesNoWork : Obligations.SpentBudgetDoesNoWork :=
  ⟨fun _ _ => execute_spent, fun _ _ => execute_spent (Nat.zero_le _)⟩

theorem execute_not_refused (maxCycles : Nat) (s : State) (r : Refusal) : execute maxCycles s ≠ .refused r := by
  induction s using execute_induction (maxCycles := maxCycles) with
  | spent s hs => rw [execute_spent hs]; nofun
  | continues s t hs hi ih => rwa [execute_continues hs hi]
  | unrecognized s op addr t hs hi => rw [execute_unrecognized hs hi]; nofun
  | faulted s f hs hi => rw [execute_faulted hs hi]; nofun

/-- Settles O33: no iteration is refused, so no step and no call is. -/
theorem nothingIsRefusedInExecution : Obligations.NothingIsRefusedInExecution := by
  intro s r maxCycles
  refine ⟨fun h => ?step, execute_not_refused maxCycles s r⟩
  case step =>
    cases hi : iteration s with
    | refused r' => exact iteration_not_refused s r' hi
    | _ => rw [step, hi] at h; cases h

/-- A handler's iteration continues or takes the bus's fault of a word. -/
theorem handlerEnd_exec_cases (i : Instr) (s : State) :
    (∃ t, handlerEnd (exec i s) = .continues t) ∨ ∃ ea, handlerEnd (exec i s) = .faulted (.boundsFault ea 2) := by
  obtain hin | ⟨ea, hd, hea⟩ := dataInside_or_outside i s
  · exact .inl ⟨_, by rw [exec_inside hin, handlerEnd]⟩
  · exact .inr ⟨ea, by rw [exec_outside hd hea, handlerEnd]⟩

/-- What an iteration that halts reports and leaves. -/
theorem unrecognized_eq {s t : State} {op : Byte} {addr : Word} (h : iteration s = .unrecognized op addr t) :
    s.pc.toNat ≤ 0xFFFE ∧ addr = s.pc ∧ t = movedOn 1 0 s := by
  obtain ⟨f, hf, -⟩ | ⟨hp, -, hu⟩ | ⟨i, -, -, he⟩ := iteration_cases s
  · rw [hf] at h; cases h
  · rw [hu] at h; cases h; exact ⟨hp, rfl, rfl⟩
  · obtain ⟨u, hx⟩ | ⟨ea, hx⟩ := handlerEnd_exec_cases i (movedOn (instrLength i) (instrLength i) s) <;>
      rw [he, hx] at h <;> cases h

/-- What a call that returns leaves: its budget spent, at most 4 past it if it worked, or a halt below it, one past the
reported byte. -/
def ReturnsWithin (maxCycles : Nat) (s : State) : StopReason → State → Prop
  | .budget, t => maxCycles ≤ t.cyc ∧ (s.cyc < maxCycles → t.cyc ≤ maxCycles + 4)
  | .unrecognized _ addr, t => s.cyc ≤ t.cyc ∧ t.cyc < maxCycles ∧ t.pc = addr + 1#16

/-- What holds of a call from the state after an iteration that continued holds of the call from before it. -/
theorem ReturnsWithin.of_continues {maxCycles c : Nat} {s t u : State} {reason : StopReason} (hs : s.cyc < maxCycles)
    (hi : iteration s = .continues t) (hcall : execute maxCycles t = .ok c reason u)
    (h : ReturnsWithin maxCycles t reason u) : ReturnsWithin maxCycles s reason u := by
  have hcyc := continues_cyc hi
  cases reason with
  | unrecognized op addr =>
    obtain ⟨hle, hlt, hpc⟩ := h
    exact ⟨by omega, hlt, hpc⟩
  | budget =>
    obtain ⟨hge, hle⟩ := h
    refine ⟨hge, fun _ => ?_⟩
    by_cases ht : t.cyc < maxCycles
    · exact hle ht
    · rw [execute_spent (Nat.le_of_not_lt ht)] at hcall
      cases hcall
      omega

theorem execute_returnsWithin {maxCycles c : Nat} {reason : StopReason} {s u : State}
    (h : execute maxCycles s = .ok c reason u) : ReturnsWithin maxCycles s reason u := by
  induction s using execute_induction (maxCycles := maxCycles) with
  | spent s hs =>
    rw [execute_spent hs] at h
    cases h
    exact ⟨hs, fun hlt => by omega⟩
  | continues s t hs hi ih =>
    rw [execute_continues hs hi] at h
    exact .of_continues hs hi h (ih h)
  | unrecognized s op addr t hs hi =>
    rw [execute_unrecognized hs hi] at h
    cases h
    obtain ⟨-, rfl, rfl⟩ := unrecognized_eq hi
    exact ⟨Nat.le_refl _, hs, rfl⟩
  | faulted s f hs hi => rw [execute_faulted hs hi] at h; cases h

/-- Settles O44: the last iteration starts below the budget and costs at most 5; a halt takes its cycle back. -/
theorem overshootIsAtMostFour : Obligations.OvershootIsAtMostFour := by
  intro maxCycles c reason s t hs h
  have hret := execute_returnsWithin h
  obtain rfl := execute_count h
  cases reason with
  | budget =>
    obtain ⟨hge, hle⟩ := hret
    exact ⟨rfl, fun _ => ⟨hge, hle hs⟩, fun hne => absurd rfl hne⟩
  | unrecognized op addr =>
    obtain ⟨hle, hlt, -⟩ := hret
    exact ⟨rfl, nofun, fun _ => ⟨hle, hlt⟩⟩

/-! ### The length of a call -/

/-- Settles O45: an iteration that continues takes 2 off the budget left, or more, and 1 off the fuel. -/
theorem halfTheBudgetInIterationsIsEnough : Obligations.HalfTheBudgetInIterationsIsEnough := by
  intro fuel maxCycles s h
  induction fuel generalizing s with
  | zero => rw [executeLoop, execute_spent (by omega)]
  | succ fuel ih =>
    rw [executeSatisfiesTheLoop maxCycles s, executeLoop]
    by_cases hs : s.cyc < maxCycles
    · rw [if_pos hs, if_pos hs]
      cases hi : iteration s with
      | continues t =>
        have hcyc := continues_cyc hi
        exact ih t (by omega)
      | unrecognized op addr t => rfl
      | faulted f => rfl
      | refused r => rfl
    · rw [if_neg hs, if_neg hs]

/-- Settles O46: the iterations of the call that ended by its budget are the first of the later one. -/
theorem laterCallContinuesEarlierCall : Obligations.LaterCallContinuesEarlierCall := by
  intro m n c s t hmn h
  induction s using execute_induction (maxCycles := m) with
  | spent s hs => rw [execute_spent hs] at h; cases h; rfl
  | continues s u hs hi ih =>
    rw [execute_continues hs hi] at h
    rw [execute_continues (Nat.lt_of_lt_of_le hs hmn) hi, ih h]
  | unrecognized s op addr u hs hi => rw [execute_unrecognized hs hi] at h; cases h
  | faulted s f hs hi => rw [execute_faulted hs hi] at h; cases h

/-- Settles O47: an iteration that continues spends the budget of 1. -/
theorem budgetOfOneStepsOnce : Obligations.BudgetOfOneStepsOnce := by
  intro s
  rw [executeSatisfiesTheLoop, if_pos (Nat.lt_succ_self _)]
  cases hi : iteration s with
  | continues t =>
    have hcyc := continues_cyc hi
    exact execute_spent (by omega)
  | unrecognized op addr t => rfl
  | faulted f => rfl
  | refused r => rfl

end Sys2Proof.Machine
end

section
/-! PROOFS. The host interface (45_host_interface.md): arguments, setters and flags, what each operation may change, sessions,
and the bus. -/

namespace Sys2Proof.Machine

open Sys2Proof.Safety

/-! ### Arguments -/

theorem hostStep_accepted (op : HostOp) (s : State) (h : refusedArgument op = none) : hostStep op s = performOp op s := by
  rw [hostStep, h]

theorem hostStep_refused (op : HostOp) {v : Int} (s : State) (h : refusedArgument op = some v) :
    hostStep op s = .refused (.argumentOutsideType v) := by
  rw [hostStep, h]

theorem naturalArgument_of_nonneg {v : Int} (h : 0 ≤ v) : naturalArgument v = true := decide_eq_true h

theorem not_naturalArgument_of_neg {v : Int} (h : v < 0) : ¬naturalArgument v = true := by
  rw [naturalArgument, decide_eq_true_iff]; omega

@[simp] theorem naturalArgument_natCast (n : Nat) : naturalArgument (n : Int) = true :=
  naturalArgument_of_nonneg (Int.natCast_nonneg n)

theorem not_vectorArgument {v : Int} (h : v < 0 ∨ 0xFFFF < v) : ¬vectorArgument v = true := by
  rw [vectorArgument, decide_eq_true_iff]; omega

/-- Settles O56: the test of each operation's argument, and of the vector, fails. -/
theorem argumentsOutsideTheirTypeAreRefused : Obligations.ArgumentsOutsideTheirTypeAreRefused := by
  intro v w m s
  refine ⟨fun hv => ?operations, fun hv => if_neg (not_vectorArgument hv)⟩
  case operations =>
    have hn := not_naturalArgument_of_neg hv
    refine ⟨hostStep_refused (.execute v) s (if_neg hn), hostStep_refused (.setA v) s (if_neg hn),
      hostStep_refused (.setX v) s (if_neg hn), hostStep_refused (.setY v) s (if_neg hn),
      hostStep_refused (.readByte v) s (if_neg hn), hostStep_refused (.readWord v) s (if_neg hn),
      hostStep_refused (.writeByte v w) s (if_neg hn), hostStep_refused (.writeWord v w) s (if_neg hn), fun hw => ?second⟩
    case second =>
      have hsecond : (if naturalArgument w then (if naturalArgument v then none else some v) else some w) = some v := by
        rw [if_pos (naturalArgument_of_nonneg hw), if_neg hn]
      exact ⟨hostStep_refused (.writeByte w v) s hsecond, hostStep_refused (.writeWord w v) s hsecond⟩

/-! ### The operations on natural arguments -/

section
variable (a v : Nat) (s : State)

theorem refusedArgument_natCast : (if naturalArgument (v : Int) then none else some (v : Int)) = none :=
  if_pos (naturalArgument_natCast v)

theorem refusedArgument_write_natCast :
    (if naturalArgument (a : Int) then (if naturalArgument (v : Int) then none else some (v : Int)) else some (a : Int)) =
      none :=
  (if_pos (naturalArgument_natCast a)).trans (refusedArgument_natCast v)

theorem hostStep_execute : hostStep (.execute v) s = callEnd (execute v s) :=
  hostStep_accepted (.execute v) s (refusedArgument_natCast v)

theorem hostStep_setA : hostStep (.setA v) s =
    if v ≤ 0xFFFF then .ok .nothing (loaded v s) else .argumentFault (.valueRangeFault .a v) s := by
  rw [hostStep_accepted (.setA v) s (refusedArgument_natCast v), performOp, Int.toNat_natCast, loadAccumulator_eq]
  split <;> rfl

theorem hostStep_setX : hostStep (.setX v) s =
    if v ≤ 0xFFFF then .ok .nothing { s with x := BitVec.ofNat 16 v }
    else .argumentFault (.valueRangeFault .x v) s := by
  rw [hostStep_accepted (.setX v) s (refusedArgument_natCast v), performOp, Int.toNat_natCast, setX]
  split <;> rfl

theorem hostStep_setY : hostStep (.setY v) s =
    if v ≤ 0xFFFF then .ok .nothing { s with y := BitVec.ofNat 16 v }
    else .argumentFault (.valueRangeFault .y v) s := by
  rw [hostStep_accepted (.setY v) s (refusedArgument_natCast v), performOp, Int.toNat_natCast, setY]
  split <;> rfl

theorem hostStep_readByte : hostStep (.readByte a) s =
    if a ≤ 0xFFFF then .ok (.byte (s.mem.lookup a)) s else .sessionFault (.boundsFault a 1) := by
  rw [hostStep_accepted (.readByte a) s (refusedArgument_natCast a), performOp, Int.toNat_natCast, readByte_eq]
  by_cases h : a ≤ 0xFFFF
  · rw [if_pos h, if_pos h]
  · rw [if_neg h, if_neg h]

theorem hostStep_readWord : hostStep (.readWord a) s =
    if a ≤ 0xFFFE then .ok (.word (wordOfBytes (s.mem.lookup a) (s.mem.lookup (a + 1)))) s
    else .sessionFault (.boundsFault a 2) := by
  rw [hostStep_accepted (.readWord a) s (refusedArgument_natCast a), performOp, Int.toNat_natCast, readWord_eq]
  by_cases h : a ≤ 0xFFFE
  · rw [if_pos h, if_pos h]
  · rw [if_neg h, if_neg h]

theorem hostStep_writeByte : hostStep (.writeByte a v) s = busWriteEnd s (writeByte s.mem a v) :=
  hostStep_accepted (.writeByte a v) s (refusedArgument_write_natCast a v)

theorem hostStep_writeWord : hostStep (.writeWord a v) s = busWriteEnd s (writeWord s.mem a v) :=
  hostStep_accepted (.writeWord a v) s (refusedArgument_write_natCast a v)

end

/-! ### Setters and flags -/

/-- Settles O52: each setter by its rule, on either side of the bound. -/
theorem registerSetters : Obligations.RegisterSetters := by
  intro v s
  rw [hostStep_setA, hostStep_setX, hostStep_setY]
  constructor
  · intro hv
    exact ⟨if_pos hv, if_pos hv, if_pos hv⟩
  · intro hv
    have hn : ¬v ≤ 0xFFFF := Nat.not_le_of_lt hv
    exact ⟨if_neg hn, if_neg hn, if_neg hn⟩

/-- A field read after a write: the value written, or the field as it was. -/
theorem get_put (p : Flags) (b : Bool) (f g : Flag) : (p.put b f).get g = if g = f then b else p.get g := by
  cases f <;> cases g <;> rfl

theorem hostStep_getFlag (f : Flag) (s : State) : hostStep (.getFlag f) s = .ok (.flag (s.flags.get f)) s := rfl

theorem hostStep_setFlag (f : Flag) (b : Bool) (s : State) :
    hostStep (.setFlag f b) s = .ok .nothing (s.withFlags (s.flags.put b f)) := rfl

/-- Settles O53: a getter reads its field, and a setter writes its field. -/
theorem flagAccessors : Obligations.FlagAccessors := by
  refine ⟨fun s => ?getters, fun f g b s => ⟨_, hostStep_setFlag f b s, rfl, ?same, fun hg => ?other⟩⟩
  case getters =>
    exact ⟨hostStep_getFlag .n s, hostStep_getFlag .v s, hostStep_getFlag .e s, hostStep_getFlag .b s,
      hostStep_getFlag .d s, hostStep_getFlag .i s, hostStep_getFlag .z s, hostStep_getFlag .c s⟩
  case same => rw [hostStep_getFlag, State.withFlags_flags, get_put, if_pos rfl]
  case other => rw [State.withFlags_flags, get_put, if_neg hg]

/-! ### What an operation that returns has done -/

/-- The effect of an operation that returns, by the operation. -/
def HostEffect : HostOp → State → State → Prop
  | .reset, s, t => t = { s with pc := s.resetVector }
  | .execute m, s, t => ∃ c r, execute m.toNat s = .ok c r t
  | .setA v, s, t => 0 ≤ v ∧ v ≤ 0xFFFF ∧ t = loaded v.toNat s
  | .setX v, s, t => 0 ≤ v ∧ v ≤ 0xFFFF ∧ t = { s with x := BitVec.ofNat 16 v.toNat }
  | .setY v, s, t => 0 ≤ v ∧ v ≤ 0xFFFF ∧ t = { s with y := BitVec.ofNat 16 v.toNat }
  | .setFlag f b, s, t => t = { s with flags := s.flags.put b f }
  | .writeByte a v, s, t => ∃ m, writeByte s.mem a.toNat v.toNat = .ok m ∧ t = { s with mem := m }
  | .writeWord a v, s, t => ∃ m, writeWord s.mem a.toNat v.toNat = .ok m ∧ t = { s with mem := m }
  | .getA, s, t => t = s
  | .getX, s, t => t = s
  | .getY, s, t => t = s
  | .getPc, s, t => t = s
  | .getFlag _, s, t => t = s
  | .compose, s, t => t = s
  | .readByte _, s, t => t = s
  | .readWord _, s, t => t = s

theorem hostEffect_of_observes {op : HostOp} (h : observes op = true) (s : State) : HostEffect op s s := by
  cases op <;> first | rfl | cases h

theorem hostStep_effect {op : HostOp} {reply : Reply} {s t : State} (h : hostStep op s = .ok reply t) :
    HostEffect op s t := by
  obtain ⟨rfl, ho⟩ | ⟨rfl, ht⟩ | ⟨m, c, r, rfl, he⟩ | ⟨v, rfl, h0, hv, ht⟩ | ⟨v, rfl, h0, hv, ht⟩ |
    ⟨v, rfl, h0, hv, ht⟩ | ⟨f, b, rfl, ht⟩ | ⟨a, v, m, rfl, hw, ht⟩ | ⟨a, v, m, rfl, hw, ht⟩ := hostStep_ok_cases h
  case inl => exact hostEffect_of_observes ho _
  case inr.inl => exact ht
  case inr.inr.inl => exact ⟨c, r, he⟩
  case inr.inr.inr.inr.inr.inr.inl => exact ht
  case inr.inr.inr.inr.inr.inr.inr.inl | inr.inr.inr.inr.inr.inr.inr.inr => exact ⟨m, hw, ht⟩
  all_goals exact ⟨h0, hv, ht⟩

/-- What every call that returns keeps. -/
structure CallFrame (s t : State) : Prop where
  x : t.x = s.x
  y : t.y = s.y
  resetVector : t.resetVector = s.resetVector
  mem : t.mem = s.mem
  cyc : s.cyc ≤ t.cyc

theorem execute_frame {maxCycles c : Nat} {r : StopReason} {s t : State} (h : execute maxCycles s = .ok c r t) :
    CallFrame s t := by
  refine execute_keeps (P := CallFrame s) (fun u v hu hstep => ?_) ⟨rfl, rfl, rfl, rfl, Nat.le_refl _⟩ h
  obtain ⟨hmem, -, hx, hy, hvec, -, hcyc⟩ := stepFrame u v hstep
  exact ⟨hx.trans hu.x, hy.trans hu.y, hvec.trans hu.resetVector, hmem.trans hu.mem, Nat.le_trans hu.cyc hcyc⟩

/-- What every host operation that returns keeps, `execute` apart. -/
structure HostFrame (op : HostOp) (s t : State) : Prop where
  a : (∀ v, op ≠ .setA v) → t.a = s.a
  x : (∀ v, op ≠ .setX v) → t.x = s.x
  y : (∀ v, op ≠ .setY v) → t.y = s.y
  pc : op ≠ .reset → t.pc = s.pc
  cyc : t.cyc = s.cyc
  resetVector : t.resetVector = s.resetVector

theorem HostFrame.refl (op : HostOp) (s : State) : HostFrame op s s :=
  ⟨fun _ => rfl, fun _ => rfl, fun _ => rfl, fun _ => rfl, rfl, rfl⟩

theorem hostStep_frame {op : HostOp} {reply : Reply} {s t : State} (hop : ∀ m, op ≠ .execute m)
    (h : hostStep op s = .ok reply t) : HostFrame op s t := by
  have he := hostStep_effect h
  cases op with
  | execute m => exact absurd rfl (hop m)
  | reset => rw [show t = _ from he]; exact { HostFrame.refl _ s with pc := fun hne => absurd rfl hne }
  | setA v => obtain ⟨-, -, rfl⟩ := he; exact { HostFrame.refl _ s with a := fun hne => absurd rfl (hne v) }
  | setX v => obtain ⟨-, -, rfl⟩ := he; exact { HostFrame.refl _ s with x := fun hne => absurd rfl (hne v) }
  | setY v => obtain ⟨-, -, rfl⟩ := he; exact { HostFrame.refl _ s with y := fun hne => absurd rfl (hne v) }
  | writeByte a v => obtain ⟨m, -, rfl⟩ := he; exact { HostFrame.refl _ s with }
  | writeWord a v => obtain ⟨m, -, rfl⟩ := he; exact { HostFrame.refl _ s with }
  | setFlag f b => rw [show t = _ from he]; exact { HostFrame.refl _ s with }
  | _ => rw [show t = s from he]; exact .refl _ s

/-- Settles O55: every operation but `execute` keeps CYC, and all but `reset` of those keep PC; a call only raises CYC. -/
theorem onlyResetAndExecuteMovePc : Obligations.OnlyResetAndExecuteMovePc := by
  refine ⟨fun _ => rfl, fun op reply s t h => ?operations⟩
  case operations =>
    by_cases hop : ∃ m, op = .execute m
    · obtain ⟨m, rfl⟩ := hop
      obtain ⟨c, r, he⟩ := hostStep_effect h
      have hf := execute_frame he
      exact ⟨fun _ hne => absurd rfl (hne m), fun hne => absurd rfl (hne m), hf.cyc, hf.resetVector⟩
    · have hf := hostStep_frame (not_exists.mp hop) h
      exact ⟨fun hne _ => hf.pc hne, fun _ => hf.cyc, Nat.le_of_eq hf.cyc.symm, hf.resetVector⟩

/-- What an iteration that faults raises: the advance of PC past 0xFFFF, or the bus's fault of a word. -/
theorem faulted_cases {s : State} {f : Fault} (h : iteration s = .faulted f) :
    f = .valueRangeFault .pc 0x10000 ∨ ∃ a, f = .boundsFault a 2 := by
  obtain ⟨g, hg, hcase, -⟩ | ⟨-, -, hu⟩ | ⟨i, -, -, he⟩ := iteration_cases s
  · rw [hg] at h
    cases h
    exact hcase.imp_right fun hb => ⟨_, hb⟩
  · rw [hu] at h; cases h
  · obtain ⟨u, hx⟩ | ⟨ea, hx⟩ := handlerEnd_exec_cases i (movedOn (instrLength i) (instrLength i) s) <;>
      rw [he, hx] at h <;> cases h
    exact .inr ⟨ea, rfl⟩

/-- Settles O14: the rule of `loadAccumulator`; a step keeps A and the flags or loads; a fault of an iteration is of PC or of
the bus; and the effect of each host operation. -/
theorem accumulatorIsWrittenByOneOperation : Obligations.AccumulatorIsWrittenByOneOperation := by
  have hload (v : Nat) (s : State) (hv : v ≤ 0xFFFF) : loadAccumulator v s = .ok (loaded v s) := by
    rw [loadAccumulator_eq, if_pos hv]
  refine ⟨fun v s => ⟨hload v s, fun hv => ?tooWide⟩, fun s => ⟨fun t h => ?continues, fun op addr t h => ?halts,
    fun v h => ?faults, fun op reply t h => ⟨fun hA hop => (hostStep_frame hop h).a hA, fun v hop => ?setter⟩⟩⟩
  case tooWide => rw [loadAccumulator_eq, if_neg (Nat.not_le_of_lt hv)]
  case continues =>
    exact (step_next_accumulator (step_of_continues h)).imp_right fun ⟨v, hv, ha, hf⟩ => ⟨v, _, hload v s hv, ha, hf⟩
  case halts =>
    obtain ⟨-, -, rfl⟩ := unrecognized_eq h
    exact ⟨rfl, rfl⟩
  case faults =>
    obtain hf | ⟨a, hf⟩ := faulted_cases h <;> cases hf
  case setter =>
    subst hop
    obtain ⟨-, hv, rfl⟩ := hostStep_effect h
    exact hload _ s (by omega)

/-- Settles O54: the frames of a step and of a host operation, the effect of the two setters, and the rules of the two
indexed loads. -/
theorem indexRegistersBelongToTheHost : Obligations.IndexRegistersBelongToTheHost := by
  have hword (m : Memory) (ea : Nat) : (BitVec.ofNat 16 (storedWord m ea)).toNat = storedWord m ea := by
    have hle := storedWord_le m ea
    rw [BitVec.toNat_ofNat, Nat.mod_eq_of_lt (by omega)]
  have hset {v : Int} (h0 : 0 ≤ v) (hv : v ≤ 0xFFFF) : ((BitVec.ofNat 16 v.toNat).toNat : Int) = v := by
    rw [BitVec.toNat_ofNat]; omega
  refine ⟨fun s t h => ?step, fun op reply s t h => ?operations, fun v reply s t => ⟨fun h => ?setX, fun h => ?setY⟩,
    fun w s => ⟨fun h => ?absX, fun h => ?absY⟩⟩
  case step =>
    obtain ⟨n, c, -, -, ht⟩ := step_movedOn h
    exact ⟨ht.x, ht.y⟩
  case operations =>
    by_cases hop : ∃ m, op = .execute m
    · obtain ⟨m, rfl⟩ := hop
      obtain ⟨c, r, he⟩ := hostStep_effect h
      exact ⟨fun _ => (execute_frame he).x, fun _ => (execute_frame he).y⟩
    · have hf := hostStep_frame (not_exists.mp hop) h
      exact ⟨hf.x, hf.y⟩
  case setX =>
    obtain ⟨h0, hv, rfl⟩ := hostStep_effect h
    exact ⟨rfl, hset h0 hv⟩
  case setY =>
    obtain ⟨h0, hv, rfl⟩ := hostStep_effect h
    exact ⟨rfl, hset h0 hv⟩
  case absX => exact ⟨_, by rw [exec_ldaAbsX_eq, if_pos h], hword _ _⟩
  case absY => exact ⟨_, by rw [exec_ldaAbsY_eq, if_pos h], hword _ _⟩

/-! ### Sessions -/

theorem hostStep_keeps_wf {op : HostOp} {reply : Reply} {s t : State} (hs : s.mem.wf = true)
    (h : hostStep op s = .ok reply t) : t.mem.wf = true := by
  have he := hostStep_effect h
  cases op with
  | execute m => obtain ⟨c, r, he⟩ := he; rw [(execute_frame he).mem]; exact hs
  | writeByte a v => obtain ⟨m, hw, rfl⟩ := he; exact writeByte_keeps_wf hs hw
  | writeWord a v => obtain ⟨m, hw, rfl⟩ := he; exact writeWord_keeps_wf hs hw
  | setA v => obtain ⟨-, -, rfl⟩ := he; exact hs
  | setX v => obtain ⟨-, -, rfl⟩ := he; exact hs
  | setY v => obtain ⟨-, -, rfl⟩ := he; exact hs
  | _ => rw [show t = _ from he]; exact hs

/-- Settles O57: each operation that returns keeps the three, so a session of them does. -/
theorem sessionsKeepCanonicalMemory : Obligations.SessionsKeepCanonicalMemory := by
  intro ops reply s t hs h
  refine session_keeps (P := fun u => u.mem.wf = true ∧ u.resetVector = s.resetVector ∧ s.cyc ≤ u.cyc)
    (fun op _ r u w hu hstep => ?_) ⟨hs, rfl, Nat.le_refl _⟩ h
  obtain ⟨hwf, hvec, hcyc⟩ := hu
  obtain ⟨-, -, hcyc', hvec'⟩ := onlyResetAndExecuteMovePc.2 op r u w hstep
  exact ⟨hostStep_keeps_wf hwf hstep, hvec'.trans hvec, Nat.le_trans hcyc hcyc'⟩

/-- Settles O59: a session stops at a fault; a halt is a return, and leaves PC one past the byte reported. -/
theorem sessionEndsAtAFaultAndOutlivesAHalt : Obligations.SessionEndsAtAFaultAndOutlivesAHalt := by
  intro maxCycles ops s
  constructor
  · intro f h
    rw [session, hostStep_execute, h, callEnd]
  · intro op addr c t h
    obtain ⟨-, -, hpc⟩ := execute_returnsWithin h
    exact ⟨hpc, by rw [session, hostStep_execute, h, callEnd]⟩

/-- Settles O50: construction with the default vector, then the rule of `reset()`. -/
theorem resetStateIsFreshCoreAfterReset : Obligations.ResetStateIsFreshCoreAfterReset :=
  ⟨State.construct [] Config.defaultResetVector, constructCore_toNat [] Config.defaultResetVector, hostStep_reset _,
    reset_pc, rfl, rfl, rfl⟩

/-! ### The bus -/

/-- Settles O58: the write is a store at PC, and the fetch reads what was stored. -/
theorem hostWriteIsSeenByTheNextFetch : Obligations.HostWriteIsSeenByTheNextFetch := by
  intro op s hwf hp
  have hw := writeByte_toNat s.mem (show s.pc.toNat ≤ 0xFFFF by omega) op
  refine ⟨s.withMem (s.mem.store s.pc.toNat op), by rw [hostStep_writeByte, hw, busWriteEnd], rfl, ?fetch⟩
  case fetch =>
    rw [fetchByte_eq, State.withMem_pc, if_pos hp, State.withMem_mem, lookup_store hwf, if_pos rfl]

/-- Settles O60: the reads by their rules, the writes by the contracts of the bus, and a session goes on from the state an
argument fault leaves, which is the one before it. -/
theorem hostBusOperationsAreTheBusContract : Obligations.HostBusOperationsAreTheBusContract := by
  refine ⟨fun a v s => ?bus, fun op f s t h => ?argumentFault⟩
  case argumentFault =>
    obtain rfl := hostStep_argumentFault h
    exact ⟨rfl, fun ops => by rw [session, h]⟩
  case bus =>
    rw [hostStep_readByte, hostStep_readWord, hostStep_writeByte, hostStep_writeWord]
    refine ⟨fun ha => if_pos (by omega), fun ha => if_neg (by omega), fun ha => ⟨_, if_pos (by omega), wordOfBytes_toNat _ _⟩,
      fun ha => if_neg (by omega), fun hwf ha hv => ?byteStored, fun ha hv => ?byteTooWide, fun ha => ?byteOutside,
      fun hwf ha hv => ?wordStored, fun ha hv => ?wordTooWide, fun ha => ?wordOutside⟩
    case byteStored =>
      obtain ⟨m, hw, hat, helse⟩ := writeByte_stores hwf (show a ≤ 0xFFFF by omega) hv
      exact ⟨m, by rw [hw]; rfl, hat, helse⟩
    case byteTooWide => rw [writeByte_eq, if_pos (by omega), if_neg (by omega), busWriteEnd]
    case byteOutside => rw [writeByte_eq, if_neg (by omega), busWriteEnd]
    case wordStored =>
      obtain ⟨m, hw, hlo, hhi, helse⟩ := writeWord_stores hwf (show a ≤ 0xFFFE by omega) hv
      exact ⟨m, by rw [hw]; rfl, by rw [storedWord, hlo, hhi]; omega, helse⟩
    case wordTooWide => rw [writeWord_eq, if_pos (by omega), if_neg (by omega), busWriteEnd]
    case wordOutside => rw [writeWord_eq, if_neg (by omega), busWriteEnd]

end Sys2Proof.Machine
end
